-- ==== Sys2Proof/Word.lean ====
section
/-! DEFINITION. The machine's words: a byte and the program counter's word (00_scope.md R6, R9). -/

namespace Sys2Proof

/-- A memory cell, a register, an instruction word: an unsigned 8-bit number (R9, R14, R29). -/
abbrev Byte := BitVec 8

/-- The program counter's word: `PC_BITS` = 9 bits, enough to hold every value it can take without wrapping
(00_scope.md R7(e), 10_state.md R22). -/
abbrev PcWord := BitVec 9

/-- `zext_9` of 00_scope.md R10: an 8-bit value as a program counter value. -/
def zextPc (v : Byte) : PcWord := v.zeroExtend 9

/-- The low 8 bits of a program counter value: what a memory cell can hold of it (20_memory.md R39). -/
def pcLowByte (p : PcWord) : Byte := p.setWidth 8

end Sys2Proof
end

