-- ==== Sys2Proof/Config.lean ====
section
/-! DEFINITION. The implementation parameters of 00_scope.md R6. The opcode bytes are configuration too (R6, R59, decision
D4); their table stands in Decode.lean beside the decoder that matches it. The specification leaves no value free (R94,
R144), so there is no free value here. -/

namespace Sys2Proof

/-- `MEM_SIZE` (R6, D1): the number of memory cells. DESIGN CHOICE (log 2). -/
abbrev Config.memSize : Nat := 256

/-- `NUM_REGS` (R6, D2): the number of registers. DESIGN CHOICE (log 2). -/
abbrev Config.numRegs : Nat := 8

/-- `SP_INIT` (R6, D3): the stack pointer after reset. DESIGN CHOICE (log 2). -/
def Config.spInit : Byte := 0xF4

/-- What a memory cell holds after reset, and so what a cell that nothing has written reads as (R29, R34, R51). -/
def Config.unwrittenByte : Byte := 0x00

/-- The longest instruction, in bytes (30_encoding.md R53). -/
def Config.maxLength : Nat := 3

end Sys2Proof
end

