-- ==== Sys2Proof/Machine/State.lean ====
section
/-! DEFINITION. The whole state of the CORE (10_state.md R13) and the output trace (R30), as plain data, and the state after
reset (R34, 70_reset_and_hazards.md R142). -/

namespace Sys2Proof.Machine

/-- A register index that names a register: 0 to `NUM_REGS`-1 (R17). -/
abbrev RegIndex := Fin Config.numRegs

/-- The index of the stack pointer, the last register (R18). -/
def spIndex : RegIndex := ⟨Config.numRegs - 1, by decide⟩

/-- The memory (R29, R35): the cells that do not hold `Config.unwrittenByte`, in rising order of address. -/
abbrev Memory := List Host.Cell

/-- The flags register's four values (R24). `none` is the specification's NONE, "no relation established". -/
inductive Flag where
  | none | equal | greater | less
deriving DecidableEq, Repr

/-- The error kinds (60_exceptions.md R123). `none` is ERR_NONE. `unsupportedOperation` is kept so that the record can
express it; no step produces it (R126, D23; log 18). -/
inductive ErrKind where
  | none | outOfRange | unknownOpcode | unsupportedOperation
deriving DecidableEq, Repr

/-- The reasons a step can stop with a fault: there are none. Every error of this hardware is the fatal-error entry of
R131, which is a next state (log 4); no address and no register of the machine is absent once R83 to R86 have been
checked (R89, R113). -/
inductive Fault where
deriving DecidableEq, Repr

/-- The reasons an instruction can be refused. -/
inductive Refusal where
  /-- Raised by an arm of `exec` for an instruction that has no meaning yet; safe. No arm raises it in this model. -/
  | notModelled (mnemonic : String)
deriving DecidableEq, Repr

/-- The state (R13, R30). -/
structure State where
  /-- `M`, the memory (R29). -/
  mem : Memory
  /-- `R`, the register file; the last register is the stack pointer (R14, R18, R19). -/
  regs : Vector Byte Config.numRegs
  /-- `pc`, the program counter (R22). -/
  pc : PcWord
  /-- `FL`, the flags register (R24). -/
  fl : Flag
  /-- The running flag (R27). -/
  running : Bool
  /-- `err_kind` of the error record (R28). -/
  errKind : ErrKind
  /-- `err_pc` of the error record (R28). -/
  errPc : PcWord
  /-- `err_opcode` of the error record (R28). -/
  errOpcode : Byte
  /-- `OUT`, the bytes handed to the output sink, oldest first (R30). -/
  out : List Byte
deriving DecidableEq, Repr

/-- The machine right after reset, which is also the machine at construction (R34, R142, R143): HALTED, all cells and
`R[0]` to `R[6]` zero, the stack pointer `SP_INIT` (log 14), nothing emitted (DESIGN CHOICE, log 6). -/
def State.reset : State where
  mem := []
  regs := (Vector.replicate Config.numRegs 0).set spIndex Config.spInit
  pc := 0
  fl := .none
  running := false
  errKind := .none
  errPc := 0
  errOpcode := 0
  out := []

end Sys2Proof.Machine
end

