-- ==== Sys2Proof/Machine/Flags.lean ====
section
/-! DEFINITION. The flags register's computations: the comparison that produces its value (42_alu.md R100), the one test
branches make of it (R77, R121), and the bit patterns of the ports (10_state.md R25, 60_exceptions.md R123). -/

namespace Sys2Proof.Machine

/-- `alu(ALU_CMP, a, b)` (R100, R104): unsigned. PRESUMED (log 12, D7): GREATER means the FIRST operand is the larger. -/
def compareFlag (a b : Byte) : Flag :=
  if a = b then .equal else if b.toNat < a.toNat then .greater else .less

/-- The one bit of information the decoder has of `FL`: whether it is EQUAL (R77, R121). NONE is not EQUAL (D8). -/
def Flag.isEqual : Flag → Bool
  | .equal => true
  | .none => false
  | .greater => false
  | .less => false

/-- The flags register as wires, bit 2 = L, bit 1 = G, bit 0 = E (R25; a port encoding only, D6). -/
def Flag.bits : Flag → BitVec 3
  | .none => 0b000
  | .equal => 0b001
  | .greater => 0b010
  | .less => 0b100

/-- The 2-bit code of an error kind (R123). -/
def ErrKind.code : ErrKind → BitVec 2
  | .none => 0
  | .outOfRange => 1
  | .unknownOpcode => 2
  | .unsupportedOperation => 3

end Sys2Proof.Machine
end

