-- ==== Sys2Proof/Syntax.lean ====
section
/-! DEFINITION. The thirteen instructions (00_scope.md R1, 30_encoding.md R58), one constructor per row of the opcode
table, in the table's order. An operand is the whole operand byte as fetched (R55, R56): a register operand may therefore
name no register, which WellFormed.lean tells and the machine answers with the fatal error of R86. -/

namespace Sys2Proof

inductive Instr where
  /-- LDI regA, imm8 (R97). -/
  | ldi (a imm : Byte)
  /-- PRN regA (R98). -/
  | prn (a : Byte)
  /-- HLT (R99). -/
  | hlt
  /-- MUL regA, regB (R102). -/
  | mul (a b : Byte)
  /-- ADD regA, regB (R103). -/
  | add (a b : Byte)
  /-- PUSH regA (R111). -/
  | push (a : Byte)
  /-- POP regA (R112). -/
  | pop (a : Byte)
  /-- CALL regA (R115). -/
  | call (a : Byte)
  /-- RET (R116). -/
  | ret
  /-- CMP regA, regB (R104). -/
  | cmp (a b : Byte)
  /-- JMP regA (R117). -/
  | jmp (a : Byte)
  /-- JEQ regA (R118). -/
  | jeq (a : Byte)
  /-- JNE regA (R119). -/
  | jne (a : Byte)
deriving DecidableEq, Repr

end Sys2Proof
end

