-- ==== Sys2Proof/WellFormed.lean ====
section
/-! DEFINITION. Which instructions name only registers that exist (10_state.md R17, 30_encoding.md R56). The immediate of
LDI has no illegal value (R64). -/

namespace Sys2Proof

/-- A register operand byte is valid when it is below `NUM_REGS`; its upper bits are neither masked nor ignored (R56). -/
def validReg (a : Byte) : Bool := decide (a.toNat < Config.numRegs)

/-- The operand bytes that the instruction's format makes register indices (R55, R86), first `opA`, then `opB`. -/
def Instr.regOperands : Instr → List Byte
  | .ldi a _ => [a]
  | .prn a => [a]
  | .hlt => []
  | .mul a b => [a, b]
  | .add a b => [a, b]
  | .push a => [a]
  | .pop a => [a]
  | .call a => [a]
  | .ret => []
  | .cmp a b => [a, b]
  | .jmp a => [a]
  | .jeq a => [a]
  | .jne a => [a]

/-- Every register operand of the instruction names a register (R86). -/
def Instr.wellFormed (i : Instr) : Bool := i.regOperands.all validReg

end Sys2Proof
end

