-- ==== Sys2Proof/Decode.lean ====
section
/-! DEFINITION. The opcode table (30_encoding.md R58), the decoder (R53 to R65, 40_core_cycle_and_blocks.md R84, R85) and
the encoder. The decoder is total on any list of bytes and rejects by name. -/

namespace Sys2Proof

/-- The thirteen opcodes (R1, R58), in the table's order. -/
inductive Opcode where
  | ldi | prn | hlt | mul | add | push | pop | call | ret | cmp | jmp | jeq | jne
deriving DecidableEq, Repr

/-- The opcode table as a list, in the order of R58. -/
def allOpcodes : List Opcode :=
  [.ldi, .prn, .hlt, .mul, .add, .push, .pop, .call, .ret, .cmp, .jmp, .jeq, .jne]

/-- The opcode byte of each instruction (R58). PRESUMED (log 1): the byte values are general knowledge of the LS-8 teaching
specification, held as configuration (decision D4). -/
def opcodeByte : Opcode → Byte
  | .ldi  => 0b10000010
  | .prn  => 0b01000111
  | .hlt  => 0b00000001
  | .mul  => 0b10100010
  | .add  => 0b10100000
  | .push => 0b01000101
  | .pop  => 0b01000110
  | .call => 0b01010000
  | .ret  => 0b00010001
  | .cmp  => 0b10100111
  | .jmp  => 0b01010100
  | .jeq  => 0b01010101
  | .jne  => 0b01010110

/-- The operand count of an opcode byte: its top two bits (R54). -/
def operandCount (op : Byte) : Nat := (op.extractLsb' 6 2).toNat

/-- The opcode match (R61, R84): all eight bits of the byte are compared with the table, nothing else is looked at. -/
def matchOpcode (op : Byte) : Option Opcode := allOpcodes.find? fun m => opcodeByte m == op

/-- The instruction an opcode and its operand bytes stand for (R55): an operand byte the format lacks is not looked at. -/
def assemble (m : Opcode) (opA opB : Byte) : Instr :=
  match m with
  | .ldi  => .ldi opA opB
  | .prn  => .prn opA
  | .hlt  => .hlt
  | .mul  => .mul opA opB
  | .add  => .add opA opB
  | .push => .push opA
  | .pop  => .pop opA
  | .call => .call opA
  | .ret  => .ret
  | .cmp  => .cmp opA opB
  | .jmp  => .jmp opA
  | .jeq  => .jeq opA
  | .jne  => .jne opA

/-- Why bytes are no instruction. Each is an error of the fetch and decode steps (R83 to R85). -/
inductive DecodeError where
  /-- There is no opcode byte to read (R83). -/
  | noOpcode
  /-- The opcode byte is none of the thirteen (R62, R84). -/
  | unknownOpcode (op : Byte)
  /-- The opcode matched and has an operand, but there is no first operand byte (R85). -/
  | missingOperandA (op : Byte)
  /-- The opcode matched and has two operands, but there is no second operand byte (R85). -/
  | missingOperandB (op : Byte)
deriving DecidableEq, Repr

/-- Decoding: the opcode is matched before any operand byte is taken (R84, R63); then exactly as many operand bytes are
taken as the top two bits of the opcode byte say (R85). It answers the instruction and the bytes after it. -/
def decode : List Byte → Except DecodeError (Instr × List Byte)
  | [] => .error .noOpcode
  | op :: rest =>
    match matchOpcode op with
    | none => .error (.unknownOpcode op)
    | some m =>
      match operandCount op, rest with
      | 0, rest => .ok (assemble m 0 0, rest)
      | _, [] => .error (.missingOperandA op)
      | 1, a :: rest => .ok (assemble m a 0, rest)
      | _, [_] => .error (.missingOperandB op)
      | _, a :: b :: rest => .ok (assemble m a b, rest)

/-- The opcode of an instruction (R58). -/
def opcodeOf : Instr → Opcode
  | .ldi _ _ => .ldi
  | .prn _ => .prn
  | .hlt => .hlt
  | .mul _ _ => .mul
  | .add _ _ => .add
  | .push _ => .push
  | .pop _ => .pop
  | .call _ => .call
  | .ret => .ret
  | .cmp _ _ => .cmp
  | .jmp _ => .jmp
  | .jeq _ => .jeq
  | .jne _ => .jne

/-- The operand bytes of an instruction, in the order they lie in memory (R40, R55). -/
def operandBytes : Instr → List Byte
  | .ldi a imm => [a, imm]
  | .prn a => [a]
  | .hlt => []
  | .mul a b => [a, b]
  | .add a b => [a, b]
  | .push a => [a]
  | .pop a => [a]
  | .call a => [a]
  | .ret => []
  | .cmp a b => [a, b]
  | .jmp a => [a]
  | .jeq a => [a]
  | .jne a => [a]

/-- The bytes of an instruction: the opcode byte, then the operand bytes (R40, R55). -/
def encode (i : Instr) : List Byte := opcodeByte (opcodeOf i) :: operandBytes i

/-- An instruction's bytes from one number, as the opcode table numbers bits: the first byte is bits 7..0, the second
bits 15..8, the third bits 23..16; the bits from `nbits` up are 0. -/
def wordBytes (nbits w : Nat) : List Byte :=
  let v : Nat := w % 2 ^ nbits
  [BitVec.ofNat 8 v, BitVec.ofNat 8 (v / 256), BitVec.ofNat 8 (v / 65536)]

/-- The instruction the decoder reads from an instruction given as one number; none where it refuses. -/
def decodeTableWord (nbits w : Nat) : Option Instr :=
  match decode (wordBytes nbits w) with
  | .ok (i, _) => some i
  | .error _ => none

end Sys2Proof
end

