-- ==== Sys2Proof/Machine/Ops.lean ====
section
/-! DEFINITION. The named operations every meaning is written with: the two accessor pairs (20_memory.md R37,
40_core_cycle_and_blocks.md R74), the stack sequences (43_stack.md R109, R110), the program counter (R76, R88), the output
(R93) and the one way an error is raised (60_exceptions.md R131). There is no return from an error (R134), so no operation
beside it. -/

namespace Sys2Proof.Machine

/-! ### Memory as data -/

/-- What the cell at an address holds (R29); a cell not listed holds what reset left in it (R51). -/
def readCell : Memory → Nat → Byte
  | [], _ => Config.unwrittenByte
  | (k, w) :: m, a => if k = a then w else readCell m a

/-- Prepend a cell, unless it holds what an unlisted cell reads as. -/
def consCell (a : Nat) (v : Byte) (m : Memory) : Memory :=
  if v = Config.unwrittenByte then m else (a, v) :: m

/-- Set the cell at an address and no other (R37), keeping the canonical form. -/
def writeCell : Memory → Nat → Byte → Memory
  | [], a, v => consCell a v []
  | (k, w) :: m, a, v =>
    if a < k then consCell a v ((k, w) :: m)
    else if a = k then consCell a v m
    else (k, w) :: writeCell m a v

/-- Every listed address is at least `lo`, and the rest of the canonical form holds from there. -/
def wfFrom : Nat → Memory → Bool
  | _, [] => true
  | lo, (k, w) :: m =>
    decide (lo ≤ k) && decide (k < Config.memSize) && decide (w ≠ Config.unwrittenByte) && wfFrom (k + 1) m

/-- The canonical form: addresses strictly rising and below `MEM_SIZE`, no cell listed that holds what an unlisted cell
reads as. -/
def Memory.wf (m : Memory) : Bool := wfFrom 0 m

/-! ### Updates of one component -/

/-- Register read (R10, R74) at an index that names a register. -/
def State.reg (s : State) (r : RegIndex) : Byte := s.regs[r]

/-- Register write (R10, R20, R74) at an index that names a register; no register is hardwired (R15). -/
def State.setReg (s : State) (r : RegIndex) (v : Byte) : State := { s with regs := s.regs.set r v }

/-- The stack pointer is the last register, not a register of its own (R19). -/
def State.sp (s : State) : Byte := s.reg spIndex

/-- Set the stack pointer (R10: `SP <- v` is `R[7] <- v`). -/
def State.setSp (s : State) (v : Byte) : State := s.setReg spIndex v

/-- Set one memory cell. -/
def State.setCell (s : State) (a : Nat) (v : Byte) : State := { s with mem := writeCell s.mem a v }

/-- Set the program counter. -/
def State.setPc (s : State) (p : PcWord) : State := { s with pc := p }

/-- Set the flags register (R77). -/
def State.setFl (s : State) (f : Flag) : State := { s with fl := f }

/-- Clear the running flag (R27, R80). -/
def State.halt (s : State) : State := { s with running := false }

/-- `Emit(v)`: the byte goes to the end of the output trace (R93); the sink always accepts (D18). -/
def State.emit (s : State) (v : Byte) : State := { s with out := s.out ++ [v] }

/-! ### The fatal error -/

/-- The fatal-error entry (R131): the record is written, the machine is HALTED, nothing else changes and control goes
nowhere. `op` is the opcode byte, 0x00 where none was read. -/
def raise (k : ErrKind) (op : Byte) (s : State) : State :=
  { s with errKind := k, errPc := s.pc, errOpcode := op, running := false }

/-- The end of an execute rule: its next state, or, where it raised an error, the fatal-error entry from the state BEFORE
the instruction, so that an error is precise (R10 "raise", R130). -/
def complete (m : Opcode) (s : State) (r : Except ErrKind State) : Host.Outcome State Fault Refusal :=
  match r with
  | .ok t => .next t
  | .error k => .next (raise k (opcodeByte m) s)

/-- What a HALTED machine does when asked for a step: no step, no change (R91; DESIGN CHOICE, log 3). -/
def idle (s : State) : Host.Outcome State Fault Refusal := .next s

/-! ### Memory access with the bounds check -/

/-- `MemRead(addr, 1)` (R37, R38): the address is never clamped or wrapped. -/
def memRead (s : State) (a : Nat) : Except ErrKind Byte :=
  if a < Config.memSize then .ok (readCell s.mem a) else .error .outOfRange

/-- `MemWrite(addr, 1, v)` (R37, R38). -/
def memWrite (s : State) (a : Nat) (v : Byte) : Except ErrKind State :=
  if a < Config.memSize then .ok (s.setCell a v) else .error .outOfRange

/-! ### The stack sequences -/

/-- The first half of a push (R109): `SP <- (SP - 1) mod 256`. -/
def State.decSp (s : State) : State := s.setSp (s.sp - 1)

/-- The second half of a pop (R110): `SP <- (SP + 1) mod 256`. -/
def State.incSp (s : State) : State := s.setSp (s.sp + 1)

/-- The second half of a push (R109): the write at the stack pointer, already decremented. -/
def storeTop (v : Byte) (s : State) : Except ErrKind State := memWrite s s.sp.toNat v

/-- The push sequence (R109). -/
def push (v : Byte) (s : State) : Except ErrKind State := storeTop v s.decSp

/-- The first half of a pop (R110): the read at the stack pointer, not yet incremented. -/
def loadTop (s : State) : Except ErrKind Byte := memRead s s.sp.toNat

/-- The pop sequence (R110). -/
def pop (s : State) : Except ErrKind (Byte × State) :=
  match loadTop s with
  | .ok v => .ok (v, s.incSp)
  | .error k => .error k

/-! ### The program counter -/

/-- The address of the next sequential instruction (R88, R65): `pc + 1 + n`, with `n` from the top two bits of the opcode
byte; the sum is not reduced modulo 256 (R22). -/
def State.nextPc (s : State) (m : Opcode) : PcWord := s.pc + BitVec.ofNat 9 (1 + operandCount (opcodeByte m))

/-- Step 4, the sequential advance (R88). -/
def State.advance (s : State) (m : Opcode) : State := s.setPc (s.nextPc m)

/-- A transfer of control (R114): the target is an absolute address, the whole 8-bit value, zero-extended. -/
def State.jump (s : State) (target : Byte) : State := s.setPc (zextPc target)

end Sys2Proof.Machine
end

