-- ==== Sys2Proof/Machine/Operands.lean ====
section
/-! DEFINITION. The operand forms (30_encoding.md R55, R56, R57): a register operand byte, checked against `NUM_REGS` and
never masked; an immediate is used as it stands. -/

namespace Sys2Proof.Machine

/-- The register index check (R86, R17): a byte below `NUM_REGS` names the register of that number, any other is the fatal
error OutOfRange (R124 cause (c)). It stands before any part of an execute rule, branches not taken included (D12; log 8). -/
def checkReg (a : Byte) : Except ErrKind RegIndex :=
  if h : a.toNat < Config.numRegs then .ok ⟨a.toNat, h⟩ else .error .outOfRange

/-- The check of the formats with one register operand (`R` and `RI`), and what runs when it passes. -/
def withReg (a : Byte) (body : RegIndex → Except ErrKind State) : Except ErrKind State :=
  match checkReg a with
  | .ok r => body r
  | .error k => .error k

/-- The check of the format with two register operands (`RR`): first `opA`, then `opB` (R86). -/
def withRegs (a b : Byte) (body : RegIndex → RegIndex → Except ErrKind State) : Except ErrKind State :=
  withReg a fun ra => withReg b fun rb => body ra rb

end Sys2Proof.Machine
end

