-- ==== Sys2Proof/Machine/Alu.lean ====
section
/-! DEFINITION. The block alu_dispatch (42_alu.md R100, R101, R105) and its three instructions MUL, ADD, CMP. -/

namespace Sys2Proof.Machine

/-- The closed set of ALU operations (R101). -/
inductive AluOp where
  | add | mul | cmp
deriving DecidableEq, Repr

/-- What the ALU returns: an 8-bit result or a flag value (R100). -/
inductive AluResult where
  | value (v : Byte)
  | flag (f : Flag)
deriving DecidableEq, Repr

/-- `alu(op, a, b)` (R100): a function without state. Sum and product are exact and then reduced modulo 256 (R105);
overflow is silent (R106). -/
def alu (op : AluOp) (a b : Byte) : AluResult :=
  match op with
  | .add => .value (BitVec.ofNat 8 (a.toNat + b.toNat))
  | .mul => .value (BitVec.ofNat 8 (a.toNat * b.toNat))
  | .cmp => .flag (compareFlag a b)

/-- Where the result goes (R75, R77): an 8-bit result to the destination register, a flag value to `FL`. -/
def commitAlu (d : RegIndex) (r : AluResult) (s : State) : State :=
  match r with
  | .value v => s.setReg d v
  | .flag f => s.setFl f

/-- What the three instructions share: both sources are read before the result is written (R107), then the advance. -/
def aluInstr (m : Opcode) (op : AluOp) (a b : Byte) (s : State) : Except ErrKind State :=
  withRegs a b fun ra rb => .ok ((commitAlu ra (alu op (s.reg ra) (s.reg rb)) s).advance m)

/-- MUL regA, regB (R102). -/
def execMul (a b : Byte) (s : State) : Host.Outcome State Fault Refusal :=
  complete .mul s (aluInstr .mul .mul a b s)

/-- ADD regA, regB (R103). -/
def execAdd (a b : Byte) (s : State) : Host.Outcome State Fault Refusal :=
  complete .add s (aluInstr .add .add a b s)

/-- CMP regA, regB (R104). -/
def execCmp (a b : Byte) (s : State) : Host.Outcome State Fault Refusal :=
  complete .cmp s (aluInstr .cmp .cmp a b s)

end Sys2Proof.Machine
end

