-- ==== Sys2Proof/Machine/Control.lean ====
section
/-! DEFINITION. CALL, RET, JMP, JEQ, JNE (44_control_transfer.md): the instructions that set `pc` themselves; none is
followed by the advance when it transfers control (R88). -/

namespace Sys2Proof.Machine

/-- The return address CALL stores: the address of the next sequential instruction, `pc + 2`, reduced to the 8 bits of a
memory cell (R115, R39, D14; log 15). -/
def returnByte (s : State) : Byte := pcLowByte (s.nextPc .call)

/-- CALL regA (R115): the push comes first, then the register is read, so CALL r7 jumps to the decremented stack pointer
(D13; log 11). -/
def execCall (a : Byte) (s : State) : Host.Outcome State Fault Refusal :=
  complete .call s <| withReg a fun r =>
    match push (returnByte s) s with
    | .ok t => .ok (t.jump (t.reg r))
    | .error k => .error k

/-- RET (R116): the byte on top of the stack is the target, whoever put it there. -/
def execRet (s : State) : Host.Outcome State Fault Refusal :=
  complete .ret s <|
    match pop s with
    | .ok (v, t) => .ok (t.jump v)
    | .error k => .error k

/-- What a conditional branch does (R118, R119, R121): a transfer when the condition holds, the advance when not. `FL` is
read, not written. -/
def branch (m : Opcode) (taken : Bool) (r : RegIndex) (s : State) : State :=
  if taken then s.jump (s.reg r) else s.advance m

/-- JMP regA (R117). -/
def execJmp (a : Byte) (s : State) : Host.Outcome State Fault Refusal :=
  complete .jmp s (withReg a fun r => .ok (s.jump (s.reg r)))

/-- JEQ regA (R118): the index is checked whether or not the branch is taken (D12). -/
def execJeq (a : Byte) (s : State) : Host.Outcome State Fault Refusal :=
  complete .jeq s (withReg a fun r => .ok (branch .jeq s.fl.isEqual r s))

/-- JNE regA (R119): NONE, GREATER and LESS branch (R121). -/
def execJne (a : Byte) (s : State) : Host.Outcome State Fault Refusal :=
  complete .jne s (withReg a fun r => .ok (branch .jne (!s.fl.isEqual) r s))

end Sys2Proof.Machine
end

