-- ==== Sys2Proof/Machine/DataOutputHalt.lean ====
section
/-! DEFINITION. LDI, PRN, HLT (41_data_output_halt.md). -/

namespace Sys2Proof.Machine

/-- LDI regA, imm8 (R97): `R[opA] <- opB`. The immediate is never checked. -/
def execLdi (a imm : Byte) (s : State) : Host.Outcome State Fault Refusal :=
  complete .ldi s (withReg a fun r => .ok ((s.setReg r imm).advance .ldi))

/-- PRN regA (R98): `Emit(R[opA])`. -/
def execPrn (a : Byte) (s : State) : Host.Outcome State Fault Refusal :=
  complete .prn s (withReg a fun r => .ok ((s.emit (s.reg r)).advance .prn))

/-- HLT (R99): `running <- 0`; the program counter advances as for any instruction that does not set it (D9; log 13). -/
def execHlt (s : State) : Host.Outcome State Fault Refusal :=
  complete .hlt s (.ok (s.halt.advance .hlt))

end Sys2Proof.Machine
end

