-- ==== Sys2Proof/Machine/Stack.lean ====
section
/-! DEFINITION. PUSH and POP (43_stack.md R111, R112). The effects are performed in the written order, each seeing those
before it, which shows when the operand names the stack pointer (00_scope.md R10, D13; log 11). -/

namespace Sys2Proof.Machine

/-- PUSH regA (R111): the register is read after the decrement, so PUSH r7 stores the decremented stack pointer. -/
def execPush (a : Byte) (s : State) : Host.Outcome State Fault Refusal :=
  complete .push s <| withReg a fun r =>
    match push (s.decSp.reg r) s with
    | .ok t => .ok (t.advance .push)
    | .error k => .error k

/-- POP regA (R112): the register is written before the increment, so POP r7 leaves the popped byte plus one. -/
def execPop (a : Byte) (s : State) : Host.Outcome State Fault Refusal :=
  complete .pop s <| withReg a fun r =>
    match loadTop s with
    | .ok v => .ok ((s.setReg r v).incSp.advance .pop)
    | .error k => .error k

end Sys2Proof.Machine
end

