-- ==== Sys2Proof/Machine/Fetch.lean ====
section
/-! DEFINITION. Steps 1 and 2 of the cycle, fetch and decode (40_core_cycle_and_blocks.md R83 to R85), on current memory:
there is no prefetch and no instruction buffer (R72, 20_memory.md R49). -/

namespace Sys2Proof.Machine

/-- The bytes that can be read at `n` addresses from `a` on, stopping where memory ends (R38). -/
def bytesFrom (s : State) : Nat → Nat → List Byte
  | 0, _ => []
  | n + 1, a =>
    match memRead s a with
    | .ok b => b :: bytesFrom s n (a + 1)
    | .error _ => []

/-- The bytes at `pc`, `pc`+1 and `pc`+2 that lie in memory (R83, R85; log 9). -/
def fetchBytes (s : State) : List Byte := bytesFrom s Config.maxLength s.pc.toNat

/-- The instruction at `pc`, or why there is none. -/
def fetchInstr (s : State) : Except DecodeError Instr :=
  match decode (fetchBytes s) with
  | .ok (i, _) => .ok i
  | .error e => .error e

/-- The error kind and recorded opcode byte of a fetch or decode that failed (R83, R84, R85, R124, R125). -/
def fetchFault : DecodeError → ErrKind × Byte
  | .noOpcode => (.outOfRange, 0x00)
  | .unknownOpcode op => (.unknownOpcode, op)
  | .missingOperandA op => (.outOfRange, op)
  | .missingOperandB op => (.outOfRange, op)

/-- The fatal-error entry of a fetch or decode that failed (R131). -/
def fetchRaise (e : DecodeError) (s : State) : State := raise (fetchFault e).1 (fetchFault e).2 s

/-- Store bytes at rising addresses from `a` on, those that lie in memory. -/
def storeFrom : Memory → Nat → List Byte → Memory
  | m, _, [] => m
  | m, a, v :: vs => storeFrom (if a < Config.memSize then writeCell m a v else m) (a + 1) vs

/-- The machine with these bytes where the next fetch reads, and RUNNING: what `load()` and `run()` do for a program, done
here for one instruction (R81, R82; log 5). -/
def placeAtFetch (s : State) (bytes : List Byte) : State :=
  { s with mem := storeFrom s.mem s.pc.toNat bytes, running := true }

end Sys2Proof.Machine
end

