-- ==== Sys2Proof/Machine/Step.lean ====
section
/-! DEFINITION. One step of the CORE (40_core_cycle_and_blocks.md R89): one whole instruction while RUNNING, nothing while
HALTED (R91). -/

namespace Sys2Proof.Machine

def step (s : State) : Host.Outcome State Fault Refusal :=
  if s.running then
    match fetchInstr s with
    | .ok i => exec i s
    | .error e => .next (fetchRaise e s)
  else idle s

/-- The state with one instruction, given as one number, stored where the next step fetches, and RUNNING (log 5). -/
def State.withFetchWord (s : State) (nbits w : Nat) : State := placeAtFetch s (wordBytes nbits w)

end Sys2Proof.Machine
end

