-- ==== Sys2Proof/Machine/HostOps.lean ====
section
/-! DEFINITION. What the host can do to the machine (00_scope.md R3, 40_core_cycle_and_blocks.md R70, R81, R82,
70_reset_and_hazards.md R142, R147). These are not steps: the host acts between runs (R52, R95; log 7). -/

namespace Sys2Proof.Machine

/-- `reset()` (R142), in any state: every component of the CORE at its reset value; the output trace is the
environment's and is not touched (R30). -/
def hostReset (s : State) : State := { State.reset with out := s.out }

/-- When `load(words)` is accepted (R81): HALTED, at most `MEM_SIZE` words, each an 8-bit number. -/
def loadAccepts (words : List Nat) (s : State) : Bool :=
  !s.running && decide (words.length ≤ Config.memSize) && words.all fun w => decide (w < 256)

/-- `load(words)` (R81): the words go to addresses 0, 1, 2, ... and nothing else changes; refused, it changes nothing (D17;
log 16). -/
def hostLoad (words : List Nat) (s : State) : State :=
  if loadAccepts words s then { s with mem := storeFrom s.mem 0 (words.map (BitVec.ofNat 8)) } else s

/-- One word of a load on the load port (R71): accepted only while HALTED. -/
def hostLoadWord (addr data : Byte) (s : State) : State :=
  if s.running then s else s.setCell addr.toNat data

/-- `run()` (R82): from HALTED with no error latched to RUNNING; otherwise nothing (D16; log 17). -/
def hostRun (s : State) : State :=
  if !s.running && s.errKind == .none then { s with running := true } else s

end Sys2Proof.Machine
end

