-- ==== Sys2Proof/Machine/Run.lean ====
section
/-! DEFINITION. A run (40_core_cycle_and_blocks.md R82, R90, R92): what `run()` does after it has set the running flag, under
fuel, since a program may never end (70_reset_and_hazards.md R153). The hardware has no instruction limit; the fuel is the
executor's. -/

namespace Sys2Proof.Machine

/-- `run()` and then at most `fuel` steps with nothing between them; a machine that is HALTED before the fuel is spent stays
as it is (R91), so the answer is the end of the run as soon as there is one. -/
def runFor (fuel : Nat) (s : State) : Host.Outcome State Fault Refusal :=
  Host.Core.run Sys2Proof.core fuel (hostRun s)

end Sys2Proof.Machine
end

