-- ==== Sys2Proof/Machine/Ports.lean ====
section
/-! DEFINITION. What the host reads on the ports (40_core_cycle_and_blocks.md R71, R96). The operations are normative, the
names are not; reading changes nothing. -/

namespace Sys2Proof.Machine

/-- The ports that show the state, one field per port of R71. -/
structure Ports where
  running : Bool
  errKind : BitVec 2
  errPc : PcWord
  errOpcode : Byte
  dbgPc : PcWord
  dbgFl : BitVec 3
  dbgReg : Vector Byte Config.numRegs
deriving DecidableEq, Repr

/-- The ports as the state sets them (R25, R28, R71, R123). -/
def portsOf (s : State) : Ports where
  running := s.running
  errKind := s.errKind.code
  errPc := s.errPc
  errOpcode := s.errOpcode
  dbgPc := s.pc
  dbgFl := s.fl.bits
  dbgReg := s.regs

/-- The port `dbg_mem`: the cell at an 8-bit address (R71). -/
def portMem (s : State) (addr : Byte) : Byte := readCell s.mem addr.toNat

/-- The ports `out_valid` and `out_data` over one step from `s` to `t`: the byte that step emitted, if it emitted one
(R71, R93). -/
def portOut (s t : State) : Option Byte := (t.out.drop s.out.length).head?

end Sys2Proof.Machine
end

