-- ==== Sys2Proof/Safety.lean ====
section
/-! DEFINITION. What the statements are written in: how a run ends, what an error is, what an instruction leaves alone, the
invariant of the machine, and the states that can be reached. -/

namespace Sys2Proof.Machine

/-! ### The two ends of a run (R92, R132, R133) -/

/-- A state with an error latched is faulted and never a normal end of run (R132). -/
abbrev State.Faulted (s : State) : Prop := s.errKind ≠ .none

/-- The normal end of a run: HALTED with no error (R92). -/
abbrev State.EndedNormally (s : State) : Prop := s.running = false ∧ s.errKind = .none

/-! ### What an error is (R130, R131) -/

/-- The outcome is the fatal-error entry from `s`: the record holds the kind, the address of the failed instruction and its
opcode byte, the machine is HALTED, and memory, registers, `pc`, `FL` and `OUT` are exactly as they were. -/
def Raises (k : ErrKind) (op : Byte) (s : State) (o : Host.Outcome State Fault Refusal) : Prop :=
  ∃ t, o = .next t ∧ t.errKind = k ∧ t.errPc = s.pc ∧ t.errOpcode = op ∧ t.running = false ∧
    t.mem = s.mem ∧ t.regs = s.regs ∧ t.pc = s.pc ∧ t.fl = s.fl ∧ t.out = s.out

/-! ### What an instruction leaves alone -/

/-- Every register but those listed is unchanged. -/
def RegsKeptBut (ds : List RegIndex) (s t : State) : Prop := ∀ r, r ∉ ds → t.reg r = s.reg r

/-- Every memory cell but those at the addresses listed reads as before. -/
def CellsKeptBut (as : List Nat) (s t : State) : Prop := ∀ a, a ∉ as → readCell t.mem a = readCell s.mem a

/-- The error record is unchanged (R28). -/
def RecordKept (s t : State) : Prop :=
  t.errKind = s.errKind ∧ t.errPc = s.errPc ∧ t.errOpcode = s.errOpcode

/-- Whether the instruction writes that register (the table of 10_state.md R16); the stack instructions write the stack
pointer beside the register an operand names. -/
def writesReg (i : Instr) (r : RegIndex) : Bool :=
  match i with
  | .ldi a _ => a.toNat == r.val
  | .prn _ => false
  | .hlt => false
  | .mul a _ => a.toNat == r.val
  | .add a _ => a.toNat == r.val
  | .push _ => r == spIndex
  | .pop a => a.toNat == r.val || r == spIndex
  | .call _ => r == spIndex
  | .ret => r == spIndex
  | .cmp _ _ => false
  | .jmp _ => false
  | .jeq _ => false
  | .jne _ => false

/-- Whether the instruction stores to memory: PUSH and CALL, and no other (20_memory.md R36). -/
def storesByte (i : Instr) : Bool :=
  match i with
  | .push _ => true
  | .call _ => true
  | .ldi _ _ => false
  | .prn _ => false
  | .hlt => false
  | .mul _ _ => false
  | .add _ _ => false
  | .pop _ => false
  | .ret => false
  | .cmp _ _ => false
  | .jmp _ => false
  | .jeq _ => false
  | .jne _ => false

/-- A machine that is running with this instruction's opcode byte at `pc`, where an operand byte lies past the end of
memory (from address `first` on), raises OutOfRange and does nothing else (R85, R124 cause (b)). -/
def OperandPastEndRaises (m : Opcode) (first : Nat) : Prop :=
  ∀ s : State, s.running = true → first ≤ s.pc.toNat → s.pc.toNat < Config.memSize →
    readCell s.mem s.pc.toNat = opcodeByte m → Raises .outOfRange (opcodeByte m) s (step s)

/-! ### The invariant -/

/-- The error record fits the state (R28, R124, R125, R131): no error and a cleared record; or HALTED with `pc` still at the
failed instruction, and an opcode byte of the kind that error can have. UnsupportedOperation is in no state (R126). -/
def State.recordCoherent (s : State) : Bool :=
  match s.errKind with
  | .none => decide (s.errPc = 0 ∧ s.errOpcode = 0)
  | .outOfRange =>
    decide (s.running = false ∧ s.errPc = s.pc ∧
      ((matchOpcode s.errOpcode).isSome = true ∨ (s.errOpcode = 0 ∧ s.pc.toNat = Config.memSize)))
  | .unknownOpcode =>
    decide (s.running = false ∧ s.errPc = s.pc ∧ s.pc.toNat < Config.memSize ∧ matchOpcode s.errOpcode = none)
  | .unsupportedOperation => false

/-- The machine's invariant: memory in its canonical form; `pc` at most one past the last address (R22, R124(a): only the
sequential advance past address 255 leaves memory); the error record coherent. -/
abbrev State.Inv (s : State) : Prop :=
  s.mem.wf = true ∧ s.pc.toNat ≤ Config.memSize ∧ s.recordCoherent = true

/-! ### Reachable states -/

/-- The states of a machine from its construction on, under steps and everything the host can do (R70, R81, R82, R142,
R143). -/
inductive Reachable : State → Prop where
  | constructed : Reachable State.reset
  | stepped {s t : State} : Reachable s → step s = .next t → Reachable t
  | resetByHost {s : State} : Reachable s → Reachable (hostReset s)
  | loaded {s : State} (words : List Nat) : Reachable s → Reachable (hostLoad words s)
  | loadedWord {s : State} (addr data : Byte) : Reachable s → Reachable (hostLoadWord addr data s)
  | started {s : State} : Reachable s → Reachable (hostRun s)

end Sys2Proof.Machine
end

