-- ==== Sys2Proof/Certificates/Slice0/Obligations.lean ====
section
/-! DEFINITION. The statements about the machine, each from numbered rules of spec/. A statement that rests on one of the
specification's own decisions (D<n>) or on an entry of notes/assumptions says so. -/

open Sys2Proof Sys2Proof.Machine

/-! ### Reset, invariant, host operations -/

/-- `reset()` (R142, R34) from any state. The stack pointer's 0xF4 is decision D15 (log 14), the error record D11, and that
the trace survives D18. A machine whose trace is empty is then the constructed machine (R143, log 6). -/
def Obligations.ResetLeavesTheStatedValues : Prop :=
  ∀ s : State,
    (∀ a, readCell (hostReset s).mem a = 0x00) ∧
    (∀ r : RegIndex, r ≠ spIndex → (hostReset s).reg r = 0x00) ∧
    (hostReset s).sp = 0xF4 ∧ (hostReset s).pc = 0 ∧ (hostReset s).running = false ∧ (hostReset s).fl = .none ∧
    (hostReset s).errKind = .none ∧ (hostReset s).errPc = 0 ∧ (hostReset s).errOpcode = 0x00 ∧
    (hostReset s).out = s.out ∧ (s.out = [] → hostReset s = State.reset)

/-- The invariant holds of the machine after reset. -/
def Obligations.ResetMeetsTheInvariant : Prop := State.reset.Inv

/-- Every step keeps the invariant, from every state that meets it, reachable or not: memory stays canonical, `pc` at most
one past the last address (R22, R124(a)), the error record coherent (R28, R124, R125, R126, R131; D11). -/
def Obligations.StepKeepsTheInvariant : Prop :=
  ∀ s t : State, s.Inv → step s = .next t → t.Inv

/-- Whatever the host does keeps the invariant (R81, R82, R142; D16, D17). -/
def Obligations.HostOperationsKeepTheInvariant : Prop :=
  ∀ s : State, s.Inv →
    (hostReset s).Inv ∧ (hostRun s).Inv ∧ (∀ words, (hostLoad words s).Inv) ∧
    ∀ addr data, (hostLoadWord addr data s).Inv

/-- Every state a machine can be in, from construction on, under steps, loads, runs and resets in any order, meets the
invariant. In particular no program and no host makes it report UnsupportedOperation (R126, derived by the spec; decision
D23, log 18), be RUNNING with an error latched (R28; decision D11, log 19), or hold a `pc` beyond 256 (deduced, log 20). The
host's operations are the model's functions between steps, and `Reachable` lets them come after any step (log 7). -/
def Obligations.ReachableStatesMeetTheInvariant : Prop :=
  ∀ s : State, Reachable s → s.Inv ∧ s.errKind ≠ .unsupportedOperation ∧ (s.Faulted → s.running = false)

/-- `load(words)` (R81, D17; log 16): accepted, the k-th word is in cell k, every other cell and every other component is
as it was; refused, nothing changes. -/
def Obligations.LoadFillsMemoryFromZero : Prop :=
  (∀ (words : List Nat) (s : State), s.mem.wf = true → s.running = false → words.length ≤ 256 → (∀ w ∈ words, w < 256) →
    (∀ k (h : k < words.length), readCell (hostLoad words s).mem k = BitVec.ofNat 8 words[k]) ∧
    (∀ a, words.length ≤ a → readCell (hostLoad words s).mem a = readCell s.mem a) ∧
    (hostLoad words s).regs = s.regs ∧ (hostLoad words s).pc = s.pc ∧ (hostLoad words s).fl = s.fl ∧
    (hostLoad words s).running = s.running ∧ RecordKept s (hostLoad words s) ∧ (hostLoad words s).out = s.out) ∧
  (∀ (words : List Nat) (s : State), s.running = true ∨ 256 < words.length ∨ (∃ w ∈ words, 256 ≤ w) →
    hostLoad words s = s)

/-- `run()` (R82, D16; log 17): it sets the running flag and nothing else, and only from HALTED with no error latched. -/
def Obligations.RunSetsOnlyTheRunningFlag : Prop :=
  ∀ s : State,
    (s.running = false → s.errKind = .none → hostRun s = { s with running := true }) ∧
    (s.running = true ∨ s.errKind ≠ .none → hostRun s = s)

/-- A HALTED machine performs no step and changes no state, however often it is asked (R91; log 3). -/
def Obligations.HaltedMachineChangesNothing : Prop :=
  ∀ (k : Nat) (s : State), s.running = false → Host.Core.run core k s = .next s

/-- An error latched in a HALTED machine stays (R132, R134; D11, D16): no step, no `run()` and no `load()` changes the record
or starts the machine; `reset()` clears it. -/
def Obligations.LatchedErrorIsLeftOnlyByReset : Prop :=
  ∀ s : State, s.running = false → s.Faulted →
    (∀ k, Host.Core.run core k s = .next s) ∧ hostRun s = s ∧
    (∀ words, RecordKept s (hostLoad words s) ∧ (hostLoad words s).running = false) ∧
    (hostReset s).errKind = .none

/-! ### Encoding -/

/-- For every instruction, with every operand byte, well-formed or not: decoding its encoding gives it back and leaves the
bytes after it. -/
def Obligations.DecodeOfEncodeGivesTheInstruction : Prop :=
  ∀ (i : Instr) (rest : List Byte), decode (encode i ++ rest) = .ok (i, rest)

/-- The other direction: whatever the decoder accepts is the encoding of the instruction it answers, so no two byte
sequences mean the same instruction. -/
def Obligations.DecodedBytesAreTheEncoding : Prop :=
  ∀ (bytes rest : List Byte) (i : Instr), decode bytes = .ok (i, rest) → bytes = encode i ++ rest

/-- The operand count is the top two bits of the opcode byte (R54): the instruction is one byte longer than it, the
sequential advance is as long, and no byte with the count 3 is an instruction. -/
def Obligations.TopTwoBitsCountTheOperandBytes : Prop :=
  (∀ op : Byte, operandCount op = op.toNat / 64) ∧
  (∀ i : Instr, (encode i).length = 1 + operandCount (opcodeByte (opcodeOf i))) ∧
  (∀ (i : Instr) (s : State), s.nextPc (opcodeOf i) = s.pc + BitVec.ofNat 9 (encode i).length) ∧
  (∀ (op : Byte) (rest : List Byte), operandCount op = 3 → decode (op :: rest) = .error (.unknownOpcode op)) ∧
  (∀ i : Instr, operandCount (opcodeByte (opcodeOf i)) ≠ 3)

/-- Decoding is a match of the whole opcode byte (R61): a byte of the table selects its instruction whatever the operand
bytes are, a byte of no instruction is an unknown opcode, and no two opcodes share a byte (R59(b)). -/
def Obligations.DecodingMatchesTheWholeOpcodeByte : Prop :=
  (∀ (m : Opcode) (rest rest' : List Byte) (i : Instr),
    decode (opcodeByte m :: rest) = .ok (i, rest') → opcodeOf i = m) ∧
  (∀ (m : Opcode) (rest : List Byte) (op : Byte), decode (opcodeByte m :: rest) ≠ .error (.unknownOpcode op)) ∧
  (∀ (op : Byte) (rest : List Byte), (∀ m, op ≠ opcodeByte m) → decode (op :: rest) = .error (.unknownOpcode op)) ∧
  (∀ m m' : Opcode, opcodeByte m = opcodeByte m' → m = m')

/-- The unknown opcodes are exactly the 243 bytes that are none of the thirteen of R58 (R62). The byte values are general
knowledge, decision D4 (log 1). -/
def Obligations.UnknownOpcodesAreTheOtherBytes : Prop :=
  (∀ (op : Byte) (rest : List Byte), decode (op :: rest) = .error (.unknownOpcode op) ↔
    op ∉ ([0x82, 0x47, 0x01, 0xA2, 0xA0, 0x45, 0x46, 0x50, 0x11, 0xA7, 0x54, 0x55, 0x56] : List Byte)) ∧
  ((List.range 256).filter fun n => (matchOpcode (BitVec.ofNat 8 n)).isNone).length = 243

/-- One word of each family, written out from R58's binary column, decodes to the instruction it stands for. The byte
values are general knowledge, decision D4 (log 1). -/
def Obligations.SpecWordsDecode : Prop :=
  decode [0b10000010, 0b00000000, 0b01000001] = .ok (.ldi 0 65, []) ∧
  decode [0b01000111, 0b00000000] = .ok (.prn 0, []) ∧
  decode [0b00000001] = .ok (.hlt, []) ∧
  decode [0b10100010, 0b00000000, 0b00000001] = .ok (.mul 0 1, []) ∧
  decode [0b10100111, 0b00000100, 0b00000111] = .ok (.cmp 4 7, []) ∧
  decode [0b01000101, 0b00000111] = .ok (.push 7, []) ∧
  decode [0b01010000, 0b00000001] = .ok (.call 1, []) ∧
  decode [0b00010001] = .ok (.ret, []) ∧
  decode [0b01010110, 0b00000011] = .ok (.jne 3, [])

/-! ### The cycle and its errors -/

/-- A running machine whose bytes at `pc` decode to an instruction steps by exactly that instruction (R87, R89). -/
def Obligations.StepRunsTheDecodedInstruction : Prop :=
  ∀ (s : State) (i : Instr) (rest : List Byte), s.running = true → decode (fetchBytes s) = .ok (i, rest) →
    step s = exec i s

/-- Step 1 (R83): past the last cell the fetch is OutOfRange with no opcode; elsewhere the opcode is the cell at `pc`. -/
def Obligations.FetchBeyondMemoryIsOutOfRange : Prop :=
  (∀ s : State, s.running = true → 256 ≤ s.pc.toNat → Raises .outOfRange 0x00 s (step s)) ∧
  (∀ s : State, s.pc.toNat < 256 → (fetchBytes s).head? = some (readCell s.mem s.pc.toNat))

/-- An unknown opcode (R125): raised wherever the byte lies, addresses 254 and 255 included, with its address and the byte
recorded, `pc` not advanced. -/
def Obligations.UnknownOpcodeIsFatal : Prop :=
  ∀ s : State, s.running = true → s.pc.toNat < 256 → (∀ m, readCell s.mem s.pc.toNat ≠ opcodeByte m) →
    Raises .unknownOpcode (readCell s.mem s.pc.toNat) s (step s)

/-- Step 2b (R85): with its operand bytes in memory a matched opcode is fetched with exactly the cells at `pc`, `pc`+1, …
that its count names; with one of them past the end it is OutOfRange. -/
def Obligations.OperandFetchReadsTheCountedCells : Prop :=
  (∀ (s : State) (m : Opcode), readCell s.mem s.pc.toNat = opcodeByte m →
    s.pc.toNat + operandCount (opcodeByte m) < 256 →
    ∃ i, fetchInstr s = .ok i ∧ opcodeOf i = m ∧
      encode i = (List.range (1 + operandCount (opcodeByte m))).map fun k => readCell s.mem (s.pc.toNat + k)) ∧
  (∀ (s : State) (m : Opcode), s.running = true → s.pc.toNat < 256 → readCell s.mem s.pc.toNat = opcodeByte m →
    256 ≤ s.pc.toNat + operandCount (opcodeByte m) → Raises .outOfRange (opcodeByte m) s (step s))

/-- Step 2c (R86; D12, log 8): an instruction with a register operand byte of 8 or more raises OutOfRange, whatever else it
would have done; the index is never masked (R56). -/
def Obligations.BadRegisterIndexIsOutOfRange : Prop :=
  ∀ (i : Instr) (s : State), i.wellFormed = false → Raises .outOfRange (opcodeByte (opcodeOf i)) s (exec i s)

/-- After the checks no execute rule can raise anything (the closing paragraph of R89, R113; derived by the spec): a
well-formed instruction completes in every state, leaves the error record alone, and keeps running unless it is HLT. -/
def Obligations.WellFormedInstructionCompletes : Prop :=
  ∀ (i : Instr) (s : State), i.wellFormed = true →
    ∃ t, exec i s = .next t ∧ RecordKept s t ∧ (i ≠ .hlt → t.running = s.running)

/-- Errors are precise (R130, R131; D11): a step that latches an error changes nothing but the record and the running flag,
and records where it happened. -/
def Obligations.ErrorsArePrecise : Prop :=
  ∀ s t : State, s.errKind = .none → step s = .next t → t.Faulted →
    t.mem = s.mem ∧ t.regs = s.regs ∧ t.pc = s.pc ∧ t.fl = s.fl ∧ t.out = s.out ∧ t.running = false ∧
    t.errPc = s.pc ∧ (t.errKind = .outOfRange ∨ t.errKind = .unknownOpcode)

/-- Every step of every state answers a next state: the machine never stops with a fault or a refusal (every error is the
entry of R131; log 4). -/
def Obligations.StepAlwaysAnswersANextState : Prop := ∀ s : State, ∃ t, step s = .next t

/-- A run ends in exactly two ways (R92, R133; D9, D11): by a HLT, with no error, or by a fatal error, with `pc` still at the
instruction that failed. -/
def Obligations.RunEndsByHltOrError : Prop :=
  ∀ s t : State, s.running = true → s.errKind = .none → step s = .next t → t.running = false →
    (t.EndedNormally ∧ fetchInstr s = .ok .hlt) ∨ (t.Faulted ∧ t.pc = s.pc ∧ t.errPc = s.pc)

/-- Once a run has ended, more fuel gives the same end (R90, R91, R92): there is no instruction limit and nothing between
the steps, so the end of a run does not depend on the executor (log 3). -/
def Obligations.MoreFuelGivesTheSameEnd : Prop :=
  ∀ (k j : Nat) (s t : State), runFor k s = .next t → t.running = false → runFor (k + j) s = .next t

/-! ### LDI, PRN, HLT -/

/-- LDI (R97). The opcode byte is the table's, whatever its value (D4). -/
def Obligations.LdiLoadsTheImmediate : Prop :=
  (∀ (a imm : Byte) (rest : List Byte), decode (opcodeByte .ldi :: a :: imm :: rest) = .ok (.ldi a imm, rest)) ∧
  (∀ (a imm : Byte) (s : State) (ha : a.toNat < 8), ∃ t, exec (.ldi a imm) s = .next t ∧
    t.reg ⟨a.toNat, ha⟩ = imm ∧ RegsKeptBut [⟨a.toNat, ha⟩] s t ∧ t.pc = s.pc + 3 ∧
    CellsKeptBut [] s t ∧ t.fl = s.fl ∧ t.running = s.running ∧ RecordKept s t ∧ t.out = s.out) ∧
  (∀ (a imm : Byte) (s : State), 8 ≤ a.toNat → Raises .outOfRange (opcodeByte .ldi) s (exec (.ldi a imm) s)) ∧
  OperandPastEndRaises .ldi 254

/-- PRN (R98): the register's byte is appended to the trace, and nothing else changes but `pc`. -/
def Obligations.PrnEmitsTheRegister : Prop :=
  (∀ (a : Byte) (rest : List Byte), decode (opcodeByte .prn :: a :: rest) = .ok (.prn a, rest)) ∧
  (∀ (a : Byte) (s : State) (ha : a.toNat < 8), ∃ t, exec (.prn a) s = .next t ∧
    t.out = s.out ++ [s.reg ⟨a.toNat, ha⟩] ∧ RegsKeptBut [] s t ∧ t.pc = s.pc + 2 ∧ CellsKeptBut [] s t ∧ t.fl = s.fl ∧ t.running = s.running ∧ RecordKept s t) ∧
  (∀ (a : Byte) (s : State), 8 ≤ a.toNat → Raises .outOfRange (opcodeByte .prn) s (exec (.prn a) s)) ∧
  OperandPastEndRaises .prn 255

/-- HLT (R99): the running flag is cleared and `pc` advances by one (decision D9, log 13); nothing else changes; the run has
ended and no further step changes anything. -/
def Obligations.HltEndsTheRun : Prop :=
  (∀ rest : List Byte, decode (opcodeByte .hlt :: rest) = .ok (.hlt, rest)) ∧
  (∀ s : State, ∃ t, exec .hlt s = .next t ∧ t.running = false ∧ t.pc = s.pc + 1 ∧ RegsKeptBut [] s t ∧
    CellsKeptBut [] s t ∧ t.fl = s.fl ∧ RecordKept s t ∧ t.out = s.out) ∧
  (∀ s : State, s.running = true → s.errKind = .none → s.pc.toNat < 256 →
    readCell s.mem s.pc.toNat = opcodeByte .hlt → ∃ t, step s = .next t ∧ t.EndedNormally ∧
      t.pc.toNat = s.pc.toNat + 1 ∧ ∀ k, Host.Core.run core k t = .next t)

/-! ### MUL, ADD, CMP -/

/-- MUL (R102): the low 8 bits of the exact product, no flag, `opA` = `opB` included. -/
def Obligations.MulMultipliesModulo256 : Prop :=
  (∀ (a b : Byte) (rest : List Byte), decode (opcodeByte .mul :: a :: b :: rest) = .ok (.mul a b, rest)) ∧
  (∀ (a b : Byte) (s : State) (ha : a.toNat < 8) (hb : b.toNat < 8), ∃ t, exec (.mul a b) s = .next t ∧
    (t.reg ⟨a.toNat, ha⟩).toNat = ((s.reg ⟨a.toNat, ha⟩).toNat * (s.reg ⟨b.toNat, hb⟩).toNat) % 256 ∧
    RegsKeptBut [⟨a.toNat, ha⟩] s t ∧ t.pc = s.pc + 3 ∧
    CellsKeptBut [] s t ∧ t.fl = s.fl ∧ t.running = s.running ∧ RecordKept s t ∧ t.out = s.out) ∧
  (∀ (a b : Byte) (s : State), 8 ≤ a.toNat ∨ 8 ≤ b.toNat →
    Raises .outOfRange (opcodeByte .mul) s (exec (.mul a b) s)) ∧
  OperandPastEndRaises .mul 254

/-- ADD (R103): the low 8 bits of the exact sum, no carry recorded, `opA` = `opB` included. -/
def Obligations.AddAddsModulo256 : Prop :=
  (∀ (a b : Byte) (rest : List Byte), decode (opcodeByte .add :: a :: b :: rest) = .ok (.add a b, rest)) ∧
  (∀ (a b : Byte) (s : State) (ha : a.toNat < 8) (hb : b.toNat < 8), ∃ t, exec (.add a b) s = .next t ∧
    (t.reg ⟨a.toNat, ha⟩).toNat = ((s.reg ⟨a.toNat, ha⟩).toNat + (s.reg ⟨b.toNat, hb⟩).toNat) % 256 ∧
    RegsKeptBut [⟨a.toNat, ha⟩] s t ∧ t.pc = s.pc + 3 ∧
    CellsKeptBut [] s t ∧ t.fl = s.fl ∧ t.running = s.running ∧ RecordKept s t ∧ t.out = s.out) ∧
  (∀ (a b : Byte) (s : State), 8 ≤ a.toNat ∨ 8 ≤ b.toNat →
    Raises .outOfRange (opcodeByte .add) s (exec (.add a b) s)) ∧
  OperandPastEndRaises .add 254

/-- CMP (R104): exactly one of the three relations, unsigned, and nothing else changes but `pc`. That GREATER means the
first operand is the larger, and that the comparison is unsigned, is decision D7 (log 12). -/
def Obligations.CmpSetsTheFlags : Prop :=
  (∀ (a b : Byte) (rest : List Byte), decode (opcodeByte .cmp :: a :: b :: rest) = .ok (.cmp a b, rest)) ∧
  (∀ (a b : Byte) (s : State) (ha : a.toNat < 8) (hb : b.toNat < 8), ∃ t, exec (.cmp a b) s = .next t ∧
    (t.fl = .equal ↔ s.reg ⟨a.toNat, ha⟩ = s.reg ⟨b.toNat, hb⟩) ∧
    (t.fl = .greater ↔ (s.reg ⟨b.toNat, hb⟩).toNat < (s.reg ⟨a.toNat, ha⟩).toNat) ∧
    (t.fl = .less ↔ (s.reg ⟨a.toNat, ha⟩).toNat < (s.reg ⟨b.toNat, hb⟩).toNat) ∧ t.fl ≠ .none ∧
    RegsKeptBut [] s t ∧ t.pc = s.pc + 3 ∧
    CellsKeptBut [] s t ∧ t.running = s.running ∧ RecordKept s t ∧ t.out = s.out) ∧
  (∀ (a b : Byte) (s : State), 8 ≤ a.toNat ∨ 8 ≤ b.toNat →
    Raises .outOfRange (opcodeByte .cmp) s (exec (.cmp a b) s)) ∧
  OperandPastEndRaises .cmp 254

/-- ADD and MUL give the same result whether the operands are read as unsigned or as two's-complement numbers, adding 0xFF
decrements, and a register with itself is doubled or squared (R105; R107, derived by the spec). -/
def Obligations.ArithmeticServesSignedOperandsToo : Prop :=
  ∀ (a b : Byte) (s : State) (ha : a.toNat < 8) (hb : b.toNat < 8), ∃ t u,
    exec (.add a b) s = .next t ∧ exec (.mul a b) s = .next u ∧
    t.reg ⟨a.toNat, ha⟩ = BitVec.ofInt 8 ((s.reg ⟨a.toNat, ha⟩).toInt + (s.reg ⟨b.toNat, hb⟩).toInt) ∧
    u.reg ⟨a.toNat, ha⟩ = BitVec.ofInt 8 ((s.reg ⟨a.toNat, ha⟩).toInt * (s.reg ⟨b.toNat, hb⟩).toInt) ∧
    (s.reg ⟨b.toNat, hb⟩ = 0xFF → t.reg ⟨a.toNat, ha⟩ = s.reg ⟨a.toNat, ha⟩ - 1) ∧
    (a = b → (t.reg ⟨a.toNat, ha⟩).toNat = 2 * (s.reg ⟨a.toNat, ha⟩).toNat % 256 ∧
      (u.reg ⟨a.toNat, ha⟩).toNat = (s.reg ⟨a.toNat, ha⟩).toNat ^ 2 % 256)

/-! ### PUSH, POP -/

/-- PUSH (R111): the stack pointer goes down by one modulo 256, the cell it then names takes the register's byte, nothing
else changes but `pc`. That PUSH r7 stores the decremented stack pointer is decision D13 (log 11). -/
def Obligations.PushStoresBelowTheStackPointer : Prop :=
  (∀ (a : Byte) (rest : List Byte), decode (opcodeByte .push :: a :: rest) = .ok (.push a, rest)) ∧
  (∀ (a : Byte) (s : State) (ha : a.toNat < 8), ∃ t, exec (.push a) s = .next t ∧
    t.sp = s.sp - 1 ∧ RegsKeptBut [spIndex] s t ∧
    (s.mem.wf = true → readCell t.mem (s.sp - 1).toNat =
      if a.toNat = 7 then s.sp - 1 else s.reg ⟨a.toNat, ha⟩) ∧
    CellsKeptBut [(s.sp - 1).toNat] s t ∧ t.pc = s.pc + 2 ∧
    t.fl = s.fl ∧ t.running = s.running ∧ RecordKept s t ∧ t.out = s.out) ∧
  (∀ (a : Byte) (s : State), 8 ≤ a.toNat → Raises .outOfRange (opcodeByte .push) s (exec (.push a) s)) ∧
  OperandPastEndRaises .push 255

/-- POP (R112): the register takes the byte at the stack pointer, which then goes up by one modulo 256; memory is unchanged.
That POP r7 leaves the popped byte plus one is decision D13 (log 11). -/
def Obligations.PopLoadsAtTheStackPointer : Prop :=
  (∀ (a : Byte) (rest : List Byte), decode (opcodeByte .pop :: a :: rest) = .ok (.pop a, rest)) ∧
  (∀ (a : Byte) (s : State) (ha : a.toNat < 8), ∃ t, exec (.pop a) s = .next t ∧
    (a.toNat ≠ 7 → t.reg ⟨a.toNat, ha⟩ = readCell s.mem s.sp.toNat ∧ t.sp = s.sp + 1) ∧
    (a.toNat = 7 → t.sp = readCell s.mem s.sp.toNat + 1) ∧
    RegsKeptBut [⟨a.toNat, ha⟩, spIndex] s t ∧ CellsKeptBut [] s t ∧ t.pc = s.pc + 2 ∧
    t.fl = s.fl ∧ t.running = s.running ∧ RecordKept s t ∧ t.out = s.out) ∧
  (∀ (a : Byte) (s : State), 8 ≤ a.toNat → Raises .outOfRange (opcodeByte .pop) s (exec (.pop a) s)) ∧
  OperandPastEndRaises .pop 255

/-- PUSH then POP of one register restores every register, for every register and every value (the document's property in
R112; r7 by decision D13, log 11). -/
def Obligations.PushThenPopRestoresTheRegisters : Prop :=
  ∀ (a : Byte) (s : State), a.toNat < 8 → s.mem.wf = true →
    ∃ t u, exec (.push a) s = .next t ∧ exec (.pop a) t = .next u ∧ u.sp = s.sp ∧ ∀ r, u.reg r = s.reg r

/-- A pushed byte is what the very next fetch reads when the push landed there (R49; derived by the spec). -/
def Obligations.PushedByteIsSeenByTheNextFetch : Prop :=
  ∀ (a : Byte) (s : State) (ha : a.toNat < 8), a.toNat ≠ 7 → s.mem.wf = true →
    (s.sp - 1).toNat = s.pc.toNat + 2 →
    ∃ t, exec (.push a) s = .next t ∧ (fetchBytes t).head? = some (s.reg ⟨a.toNat, ha⟩)

/-! ### CALL, RET, JMP, JEQ, JNE -/

/-- CALL (R115): the return address `pc`+2, reduced to a byte (decision D14, log 15), is pushed, and control goes to the
register's value. That CALL r7 goes to the decremented stack pointer is decision D13 (log 11). -/
def Obligations.CallPushesTheReturnAddress : Prop :=
  (∀ (a : Byte) (rest : List Byte), decode (opcodeByte .call :: a :: rest) = .ok (.call a, rest)) ∧
  (∀ (a : Byte) (s : State) (ha : a.toNat < 8), ∃ t, exec (.call a) s = .next t ∧
    t.pc.toNat = (if a.toNat = 7 then s.sp - 1 else s.reg ⟨a.toNat, ha⟩).toNat ∧
    t.sp = s.sp - 1 ∧ RegsKeptBut [spIndex] s t ∧
    (s.mem.wf = true → readCell t.mem (s.sp - 1).toNat = BitVec.ofNat 8 ((s.pc.toNat + 2) % 256)) ∧
    CellsKeptBut [(s.sp - 1).toNat] s t ∧
    t.fl = s.fl ∧ t.running = s.running ∧ RecordKept s t ∧ t.out = s.out) ∧
  (∀ (a : Byte) (s : State), 8 ≤ a.toNat → Raises .outOfRange (opcodeByte .call) s (exec (.call a) s)) ∧
  OperandPastEndRaises .call 255

/-- RET (R116): control goes to the byte at the stack pointer, which goes up by one modulo 256; memory is unchanged. -/
def Obligations.RetGoesToTheTopOfTheStack : Prop :=
  (∀ rest : List Byte, decode (opcodeByte .ret :: rest) = .ok (.ret, rest)) ∧
  (∀ s : State, ∃ t, exec .ret s = .next t ∧ t.pc.toNat = (readCell s.mem s.sp.toNat).toNat ∧ t.sp = s.sp + 1 ∧
    RegsKeptBut [spIndex] s t ∧ CellsKeptBut [] s t ∧
    t.fl = s.fl ∧ t.running = s.running ∧ RecordKept s t ∧ t.out = s.out)

/-- CALL then RET comes back to the instruction after the CALL's operand with every register as before (the document's
property in R120), for a CALL whose return address is an address of memory (at 254 see D14, log 15). -/
def Obligations.CallThenRetReturns : Prop :=
  ∀ (a : Byte) (s : State), a.toNat < 8 → s.mem.wf = true → s.pc.toNat + 2 < 256 →
    ∃ t u, exec (.call a) s = .next t ∧ exec .ret t = .next u ∧ u.pc = s.pc + 2 ∧ u.sp = s.sp ∧
      ∀ r, u.reg r = s.reg r

/-- JMP (R117): `pc` takes the register's 8-bit value, zero-extended, and nothing else changes. -/
def Obligations.JmpGoesToTheRegister : Prop :=
  (∀ (a : Byte) (rest : List Byte), decode (opcodeByte .jmp :: a :: rest) = .ok (.jmp a, rest)) ∧
  (∀ (a : Byte) (s : State) (ha : a.toNat < 8), ∃ t, exec (.jmp a) s = .next t ∧
    t.pc.toNat = (s.reg ⟨a.toNat, ha⟩).toNat ∧ RegsKeptBut [] s t ∧ CellsKeptBut [] s t ∧
    t.fl = s.fl ∧ t.running = s.running ∧ RecordKept s t ∧ t.out = s.out) ∧
  (∀ (a : Byte) (s : State), 8 ≤ a.toNat → Raises .outOfRange (opcodeByte .jmp) s (exec (.jmp a) s)) ∧
  OperandPastEndRaises .jmp 255

/-- JEQ (R118, R121): it branches on EQUAL and falls through on NONE (decision D8, log 10), GREATER and LESS; the index is
checked either way (D12, log 8). -/
def Obligations.JeqBranchesOnEqual : Prop :=
  (∀ (a : Byte) (rest : List Byte), decode (opcodeByte .jeq :: a :: rest) = .ok (.jeq a, rest)) ∧
  (∀ (a : Byte) (s : State) (ha : a.toNat < 8), ∃ t, exec (.jeq a) s = .next t ∧
    (s.fl = .equal → t.pc.toNat = (s.reg ⟨a.toNat, ha⟩).toNat) ∧ (s.fl ≠ .equal → t.pc = s.pc + 2) ∧
    RegsKeptBut [] s t ∧ CellsKeptBut [] s t ∧
    t.fl = s.fl ∧ t.running = s.running ∧ RecordKept s t ∧ t.out = s.out) ∧
  (∀ (a : Byte) (s : State), 8 ≤ a.toNat → Raises .outOfRange (opcodeByte .jeq) s (exec (.jeq a) s)) ∧
  OperandPastEndRaises .jeq 255

/-- JNE (R119, R121): it branches on NONE (decision D8, log 10), GREATER and LESS and falls through on EQUAL; the index is
checked either way (D12, log 8). -/
def Obligations.JneBranchesOnNotEqual : Prop :=
  (∀ (a : Byte) (rest : List Byte), decode (opcodeByte .jne :: a :: rest) = .ok (.jne a, rest)) ∧
  (∀ (a : Byte) (s : State) (ha : a.toNat < 8), ∃ t, exec (.jne a) s = .next t ∧
    (s.fl ≠ .equal → t.pc.toNat = (s.reg ⟨a.toNat, ha⟩).toNat) ∧ (s.fl = .equal → t.pc = s.pc + 2) ∧
    RegsKeptBut [] s t ∧ CellsKeptBut [] s t ∧
    t.fl = s.fl ∧ t.running = s.running ∧ RecordKept s t ∧ t.out = s.out) ∧
  (∀ (a : Byte) (s : State), 8 ≤ a.toNat → Raises .outOfRange (opcodeByte .jne) s (exec (.jne a) s)) ∧
  OperandPastEndRaises .jne 255

/-- A JMP to its own address is an endless loop, not a fall-through (R88, derived by the spec; R153): the machine is in the
same state after any number of steps. -/
def Obligations.JmpToItselfNeverEnds : Prop :=
  ∀ (k : Nat) (a : Byte) (s : State) (ha : a.toNat < 8), s.running = true → fetchInstr s = .ok (.jmp a) →
    (s.reg ⟨a.toNat, ha⟩).toNat = s.pc.toNat → Host.Core.run core k s = .next s

/-! ### What no instruction does -/

/-- The flags register (R26): written by CMP and reset alone, whatever the instruction and whether it raises an error; read
by JEQ and JNE alone, so that any other instruction does the same from any other value of it. -/
def Obligations.FlagsAreWrittenByCmpAndReadByBranches : Prop :=
  (∀ (i : Instr) (s t : State), exec i s = .next t → (∀ a b, i ≠ .cmp a b) → t.fl = s.fl) ∧
  (∀ (a b : Byte) (s t : State), exec (.cmp a b) s = .next t →
    ((Instr.cmp a b).wellFormed = true → t.fl ≠ .none) ∧ ((Instr.cmp a b).wellFormed = false → t.fl = s.fl)) ∧
  (∀ (s t : State), s.errKind = .none → step s = .next t → t.Faulted → t.fl = s.fl) ∧
  (∀ (i : Instr) (f : Flag) (s t : State), exec i s = .next t → (∀ a, i ≠ .jeq a) → (∀ a, i ≠ .jne a) →
    (∀ a b, i ≠ .cmp a b) → exec i { s with fl := f } = .next { t with fl := f }) ∧
  (∀ (a b : Byte) (f : Flag) (s : State), (Instr.cmp a b).wellFormed = true →
    exec (.cmp a b) { s with fl := f } = exec (.cmp a b) s) ∧
  (∀ s : State, (hostReset s).fl = .none ∧ (hostRun s).fl = s.fl ∧ ∀ words, (hostLoad words s).fl = s.fl)

/-- Which registers an instruction writes (the table of R16, derived by the spec): every other one is unchanged, in every
instruction and whether it completes or raises an error. -/
def Obligations.OnlyTheNamedRegistersAreWritten : Prop :=
  ∀ (i : Instr) (s t : State), exec i s = .next t → ∀ r, writesReg i r = false → t.reg r = s.reg r

/-- Which instructions store (R36, derived by the spec): PUSH and CALL, one byte, at the decremented stack pointer; every
other cell, and every cell under any other instruction, reads as before. -/
def Obligations.OnlyPushAndCallStore : Prop :=
  ∀ (i : Instr) (s t : State), exec i s = .next t →
    CellsKeptBut (if storesByte i then [s.decSp.sp.toNat] else []) s t

/-- Nothing but PRN emits (R93; the sink always accepts, D18): a step leaves the trace alone and shows nothing on the output
port, or runs a PRN, appends the one byte of its register and shows it on the port (R71, D19; log 22). -/
def Obligations.OnlyPrnEmits : Prop :=
  ∀ s t : State, step s = .next t → (t.out = s.out ∧ portOut s t = none) ∨
    ∃ (a : Byte) (ha : a.toNat < 8), s.running = true ∧ fetchInstr s = .ok (.prn a) ∧
      t.out = s.out ++ [s.reg ⟨a.toNat, ha⟩] ∧ portOut s t = some (s.reg ⟨a.toNat, ha⟩)

/-- The CORE cannot read the output trace (R30, D18): from two states that differ only in it, a step does the same and
emits the same bytes. -/
def Obligations.OutputTraceIsNeverRead : Prop :=
  ∀ (s t : State) (o : List Byte), step s = .next t →
    ∃ e : List Byte, e.length ≤ 1 ∧ t.out = s.out ++ e ∧ step { s with out := o } = .next { t with out := o ++ e }

/-- No instruction reads or writes the error record (R28, D11): from a state that differs only in it a step does the same,
and only the fatal-error entry writes it. -/
def Obligations.ErrorRecordIsNeverRead : Prop :=
  ∀ (s t : State) (k : ErrKind) (p : PcWord) (b : Byte), s.errKind = .none → step s = .next t →
    step { s with errKind := k, errPc := p, errOpcode := b } =
      .next (if t.errKind = .none then { t with errKind := k, errPc := p, errOpcode := b } else t)

/-- The codes on the ports: the flags as LGE (R25; general knowledge, D6) and the error kinds (R123; D11). No two values
share a code, and the other four flag patterns never occur. -/
def Obligations.PortCodesAreTheSpecifiedOnes : Prop :=
  Flag.none.bits = 0b000 ∧ Flag.equal.bits = 0b001 ∧ Flag.greater.bits = 0b010 ∧ Flag.less.bits = 0b100 ∧
  (∀ s : State, (portsOf s).dbgFl ∈ ([0b000, 0b001, 0b010, 0b100] : List (BitVec 3))) ∧
  ErrKind.none.code = 0 ∧ ErrKind.outOfRange.code = 1 ∧ ErrKind.unknownOpcode.code = 2 ∧
  ErrKind.unsupportedOperation.code = 3 ∧
  (∀ s : State, (portsOf s).errKind = 0 ↔ ¬ s.Faulted)
end

