-- ==== Sys2Proof/Laws/Memory.lean ====
section
/-! SUPPORT. The laws of memory: read after write, and that every memory operation keeps the canonical form. -/

namespace Sys2Proof.Machine

@[simp] theorem readCell_consCell_same (m : Memory) (a : Nat) (v : Byte)
    (h : v = Config.unwrittenByte → readCell m a = Config.unwrittenByte) : readCell (consCell a v m) a = v := by
  unfold consCell
  split
  · next e => rw [h e, e]
  · simp [readCell]

theorem readCell_consCell_other (m : Memory) {a b : Nat} (v : Byte) (h : b ≠ a) :
    readCell (consCell a v m) b = readCell m b := by
  unfold consCell
  split
  · rfl
  · simp [readCell, Ne.symm h]

/-- Below the lowest address listed, a cell reads as unwritten. -/
theorem readCell_below {lo : Nat} {m : Memory} (hw : wfFrom lo m = true) {a : Nat} (h : a < lo) :
    readCell m a = Config.unwrittenByte := by
  induction m generalizing lo with
  | nil => rfl
  | cons c m ih =>
    obtain ⟨k, w⟩ := c
    simp only [wfFrom, Bool.and_eq_true, decide_eq_true_eq] at hw
    have hk : k ≠ a := by omega
    simp only [readCell, hk, if_false]
    exact ih hw.2 (by omega)

/-- A write leaves every other cell alone (R37), in canonical form or not. -/
theorem readCell_writeCell_other (m : Memory) {a b : Nat} (v : Byte) (h : b ≠ a) :
    readCell (writeCell m a v) b = readCell m b := by
  induction m with
  | nil => exact readCell_consCell_other [] v h
  | cons c m ih =>
    obtain ⟨k, w⟩ := c
    simp only [writeCell]
    split
    · exact readCell_consCell_other _ v h
    · split
      · next e => subst e; simp [readCell_consCell_other m v h, readCell, Ne.symm h]
      · simp [readCell, ih]

/-- A read after a write to the same cell of a memory in canonical form gives the byte written (R37). -/
theorem readCell_writeCell_from {lo : Nat} {m : Memory} (hw : wfFrom lo m = true) (a : Nat) (v : Byte) :
    readCell (writeCell m a v) a = v := by
  induction m generalizing lo with
  | nil => exact readCell_consCell_same [] a v fun _ => rfl
  | cons c m ih =>
    obtain ⟨k, w⟩ := c
    simp only [wfFrom, Bool.and_eq_true, decide_eq_true_eq] at hw
    simp only [writeCell]
    split
    · next hk =>
      refine readCell_consCell_same _ a v fun _ => ?_
      have hne : k ≠ a := by omega
      simp only [readCell, hne, if_false]
      exact readCell_below hw.2 (by omega)
    · split
      · next e =>
        refine readCell_consCell_same _ a v fun _ => readCell_below hw.2 (by omega)
      · next h1 h2 =>
        have hne : k ≠ a := fun e => h2 e.symm
        simp only [readCell, hne, if_false]
        exact ih hw.2

theorem readCell_writeCell_same {m : Memory} (hw : m.wf = true) (a : Nat) (v : Byte) :
    readCell (writeCell m a v) a = v := readCell_writeCell_from hw a v

theorem wfFrom_mono {lo lo' : Nat} {m : Memory} (h : lo' ≤ lo) (hw : wfFrom lo m = true) : wfFrom lo' m = true := by
  cases m with
  | nil => rfl
  | cons c m =>
    obtain ⟨k, w⟩ := c
    simp only [wfFrom, Bool.and_eq_true, decide_eq_true_eq] at hw ⊢
    exact ⟨⟨⟨by omega, hw.1.1.2⟩, hw.1.2⟩, hw.2⟩

theorem wfFrom_consCell {lo a : Nat} {v : Byte} {m : Memory} (hlo : lo ≤ a) (ha : a < Config.memSize)
    (hw : wfFrom (a + 1) m = true) : wfFrom lo (consCell a v m) = true := by
  unfold consCell
  split
  · exact wfFrom_mono (by omega) hw
  · next h => simp [wfFrom, hlo, ha, h, hw]

theorem wfFrom_writeCell {lo a : Nat} {v : Byte} {m : Memory} (hlo : lo ≤ a) (ha : a < Config.memSize)
    (hw : wfFrom lo m = true) : wfFrom lo (writeCell m a v) = true := by
  induction m generalizing lo with
  | nil => exact wfFrom_consCell hlo ha rfl
  | cons c m ih =>
    obtain ⟨k, w⟩ := c
    have hw' := hw
    simp only [wfFrom, Bool.and_eq_true, decide_eq_true_eq] at hw'
    obtain ⟨⟨⟨h1, h2⟩, h3⟩, h4⟩ := hw'
    simp only [writeCell]
    split
    · next hk =>
      refine wfFrom_consCell hlo ha ?_
      simp only [wfFrom, Bool.and_eq_true, decide_eq_true_eq]
      exact ⟨⟨⟨by omega, h2⟩, h3⟩, h4⟩
    · split
      · next e => subst e; exact wfFrom_consCell hlo ha h4
      · simp only [wfFrom, Bool.and_eq_true, decide_eq_true_eq]
        exact ⟨⟨⟨h1, h2⟩, h3⟩, ih (by omega) h4⟩

/-- Writing a cell of the address space keeps the canonical form. -/
theorem writeCell_wf {m : Memory} (hw : m.wf = true) {a : Nat} (ha : a < Config.memSize) (v : Byte) :
    (writeCell m a v).wf = true := wfFrom_writeCell (Nat.zero_le a) ha hw

/-- Storing a sequence of bytes keeps the canonical form. -/
theorem storeFrom_wf {m : Memory} (hw : m.wf = true) (a : Nat) (vs : List Byte) : (storeFrom m a vs).wf = true := by
  induction vs generalizing m a with
  | nil => exact hw
  | cons v vs ih =>
    simp only [storeFrom]
    split
    · next ha => exact ih (writeCell_wf hw ha v) (a + 1)
    · exact ih hw (a + 1)

/-- Storing a sequence of bytes leaves the cells below and above it alone. -/
theorem readCell_storeFrom_outside (m : Memory) (a b : Nat) (vs : List Byte) (h : b < a ∨ a + vs.length ≤ b) :
    readCell (storeFrom m a vs) b = readCell m b := by
  induction vs generalizing m a with
  | nil => rfl
  | cons v vs ih =>
    simp only [List.length_cons] at h
    simp only [storeFrom]
    rw [ih _ (a + 1) (by omega)]
    split
    · exact readCell_writeCell_other m v (by omega)
    · rfl

/-- The k-th of a sequence of bytes stored from `a` on is at address `a + k`. -/
theorem readCell_storeFrom_inside {m : Memory} (hw : m.wf = true) (a k : Nat) (vs : List Byte) (hk : k < vs.length)
    (ha : a + k < Config.memSize) : readCell (storeFrom m a vs) (a + k) = vs[k] := by
  induction vs generalizing m a k with
  | nil => simp at hk
  | cons v vs ih =>
    have ha0 : a < Config.memSize := by omega
    simp only [storeFrom, ha0, if_true]
    cases k with
    | zero =>
      rw [Nat.add_zero, readCell_storeFrom_outside _ _ _ _ (by omega)]
      exact readCell_writeCell_same hw a v
    | succ k =>
      have := ih (writeCell_wf hw ha0 v) (a + 1) k (by simpa using hk) (by omega)
      simpa [Nat.add_assoc, Nat.add_comm 1 k] using this

end Sys2Proof.Machine
end

