-- ==== Sys2Proof/Laws/State.lean ====
section
/-! SUPPORT. One lemma per field per update, so that no later proof unfolds a record update. -/

namespace Sys2Proof.Machine


/-! ### setReg -/

@[simp] theorem setReg_mem (s : State) (r : RegIndex) (v : Byte) : (s.setReg r v).mem = s.mem := rfl
@[simp] theorem setReg_regs (s : State) (r : RegIndex) (v : Byte) : (s.setReg r v).regs = s.regs.set r v := rfl
@[simp] theorem setReg_pc (s : State) (r : RegIndex) (v : Byte) : (s.setReg r v).pc = s.pc := rfl
@[simp] theorem setReg_fl (s : State) (r : RegIndex) (v : Byte) : (s.setReg r v).fl = s.fl := rfl
@[simp] theorem setReg_running (s : State) (r : RegIndex) (v : Byte) : (s.setReg r v).running = s.running := rfl
@[simp] theorem setReg_errKind (s : State) (r : RegIndex) (v : Byte) : (s.setReg r v).errKind = s.errKind := rfl
@[simp] theorem setReg_errPc (s : State) (r : RegIndex) (v : Byte) : (s.setReg r v).errPc = s.errPc := rfl
@[simp] theorem setReg_errOpcode (s : State) (r : RegIndex) (v : Byte) : (s.setReg r v).errOpcode = s.errOpcode := rfl
@[simp] theorem setReg_out (s : State) (r : RegIndex) (v : Byte) : (s.setReg r v).out = s.out := rfl

/-! ### setSp -/

@[simp] theorem setSp_mem (s : State) (v : Byte) : (s.setSp v).mem = s.mem := rfl
@[simp] theorem setSp_regs (s : State) (v : Byte) : (s.setSp v).regs = s.regs.set spIndex v := rfl
@[simp] theorem setSp_pc (s : State) (v : Byte) : (s.setSp v).pc = s.pc := rfl
@[simp] theorem setSp_fl (s : State) (v : Byte) : (s.setSp v).fl = s.fl := rfl
@[simp] theorem setSp_running (s : State) (v : Byte) : (s.setSp v).running = s.running := rfl
@[simp] theorem setSp_errKind (s : State) (v : Byte) : (s.setSp v).errKind = s.errKind := rfl
@[simp] theorem setSp_errPc (s : State) (v : Byte) : (s.setSp v).errPc = s.errPc := rfl
@[simp] theorem setSp_errOpcode (s : State) (v : Byte) : (s.setSp v).errOpcode = s.errOpcode := rfl
@[simp] theorem setSp_out (s : State) (v : Byte) : (s.setSp v).out = s.out := rfl

/-! ### setCell -/

@[simp] theorem setCell_mem (s : State) (a : Nat) (v : Byte) : (s.setCell a v).mem = writeCell s.mem a v := rfl
@[simp] theorem setCell_regs (s : State) (a : Nat) (v : Byte) : (s.setCell a v).regs = s.regs := rfl
@[simp] theorem setCell_pc (s : State) (a : Nat) (v : Byte) : (s.setCell a v).pc = s.pc := rfl
@[simp] theorem setCell_fl (s : State) (a : Nat) (v : Byte) : (s.setCell a v).fl = s.fl := rfl
@[simp] theorem setCell_running (s : State) (a : Nat) (v : Byte) : (s.setCell a v).running = s.running := rfl
@[simp] theorem setCell_errKind (s : State) (a : Nat) (v : Byte) : (s.setCell a v).errKind = s.errKind := rfl
@[simp] theorem setCell_errPc (s : State) (a : Nat) (v : Byte) : (s.setCell a v).errPc = s.errPc := rfl
@[simp] theorem setCell_errOpcode (s : State) (a : Nat) (v : Byte) : (s.setCell a v).errOpcode = s.errOpcode := rfl
@[simp] theorem setCell_out (s : State) (a : Nat) (v : Byte) : (s.setCell a v).out = s.out := rfl

/-! ### setPc -/

@[simp] theorem setPc_mem (s : State) (p : PcWord) : (s.setPc p).mem = s.mem := rfl
@[simp] theorem setPc_regs (s : State) (p : PcWord) : (s.setPc p).regs = s.regs := rfl
@[simp] theorem setPc_pc (s : State) (p : PcWord) : (s.setPc p).pc = p := rfl
@[simp] theorem setPc_fl (s : State) (p : PcWord) : (s.setPc p).fl = s.fl := rfl
@[simp] theorem setPc_running (s : State) (p : PcWord) : (s.setPc p).running = s.running := rfl
@[simp] theorem setPc_errKind (s : State) (p : PcWord) : (s.setPc p).errKind = s.errKind := rfl
@[simp] theorem setPc_errPc (s : State) (p : PcWord) : (s.setPc p).errPc = s.errPc := rfl
@[simp] theorem setPc_errOpcode (s : State) (p : PcWord) : (s.setPc p).errOpcode = s.errOpcode := rfl
@[simp] theorem setPc_out (s : State) (p : PcWord) : (s.setPc p).out = s.out := rfl

/-! ### setFl -/

@[simp] theorem setFl_mem (s : State) (f : Flag) : (s.setFl f).mem = s.mem := rfl
@[simp] theorem setFl_regs (s : State) (f : Flag) : (s.setFl f).regs = s.regs := rfl
@[simp] theorem setFl_pc (s : State) (f : Flag) : (s.setFl f).pc = s.pc := rfl
@[simp] theorem setFl_fl (s : State) (f : Flag) : (s.setFl f).fl = f := rfl
@[simp] theorem setFl_running (s : State) (f : Flag) : (s.setFl f).running = s.running := rfl
@[simp] theorem setFl_errKind (s : State) (f : Flag) : (s.setFl f).errKind = s.errKind := rfl
@[simp] theorem setFl_errPc (s : State) (f : Flag) : (s.setFl f).errPc = s.errPc := rfl
@[simp] theorem setFl_errOpcode (s : State) (f : Flag) : (s.setFl f).errOpcode = s.errOpcode := rfl
@[simp] theorem setFl_out (s : State) (f : Flag) : (s.setFl f).out = s.out := rfl

/-! ### halt -/

@[simp] theorem halt_mem (s : State) : (s.halt).mem = s.mem := rfl
@[simp] theorem halt_regs (s : State) : (s.halt).regs = s.regs := rfl
@[simp] theorem halt_pc (s : State) : (s.halt).pc = s.pc := rfl
@[simp] theorem halt_fl (s : State) : (s.halt).fl = s.fl := rfl
@[simp] theorem halt_running (s : State) : (s.halt).running = false := rfl
@[simp] theorem halt_errKind (s : State) : (s.halt).errKind = s.errKind := rfl
@[simp] theorem halt_errPc (s : State) : (s.halt).errPc = s.errPc := rfl
@[simp] theorem halt_errOpcode (s : State) : (s.halt).errOpcode = s.errOpcode := rfl
@[simp] theorem halt_out (s : State) : (s.halt).out = s.out := rfl

/-! ### emit -/

@[simp] theorem emit_mem (s : State) (v : Byte) : (s.emit v).mem = s.mem := rfl
@[simp] theorem emit_regs (s : State) (v : Byte) : (s.emit v).regs = s.regs := rfl
@[simp] theorem emit_pc (s : State) (v : Byte) : (s.emit v).pc = s.pc := rfl
@[simp] theorem emit_fl (s : State) (v : Byte) : (s.emit v).fl = s.fl := rfl
@[simp] theorem emit_running (s : State) (v : Byte) : (s.emit v).running = s.running := rfl
@[simp] theorem emit_errKind (s : State) (v : Byte) : (s.emit v).errKind = s.errKind := rfl
@[simp] theorem emit_errPc (s : State) (v : Byte) : (s.emit v).errPc = s.errPc := rfl
@[simp] theorem emit_errOpcode (s : State) (v : Byte) : (s.emit v).errOpcode = s.errOpcode := rfl
@[simp] theorem emit_out (s : State) (v : Byte) : (s.emit v).out = s.out ++ [v] := rfl

/-! ### raise -/

@[simp] theorem raise_mem (s : State) (k : ErrKind) (op : Byte) : (raise k op s).mem = s.mem := rfl
@[simp] theorem raise_regs (s : State) (k : ErrKind) (op : Byte) : (raise k op s).regs = s.regs := rfl
@[simp] theorem raise_pc (s : State) (k : ErrKind) (op : Byte) : (raise k op s).pc = s.pc := rfl
@[simp] theorem raise_fl (s : State) (k : ErrKind) (op : Byte) : (raise k op s).fl = s.fl := rfl
@[simp] theorem raise_running (s : State) (k : ErrKind) (op : Byte) : (raise k op s).running = false := rfl
@[simp] theorem raise_errKind (s : State) (k : ErrKind) (op : Byte) : (raise k op s).errKind = k := rfl
@[simp] theorem raise_errPc (s : State) (k : ErrKind) (op : Byte) : (raise k op s).errPc = s.pc := rfl
@[simp] theorem raise_errOpcode (s : State) (k : ErrKind) (op : Byte) : (raise k op s).errOpcode = op := rfl
@[simp] theorem raise_out (s : State) (k : ErrKind) (op : Byte) : (raise k op s).out = s.out := rfl

/-! ### decSp -/

@[simp] theorem decSp_mem (s : State) : (s.decSp).mem = s.mem := rfl
@[simp] theorem decSp_regs (s : State) : (s.decSp).regs = s.regs.set spIndex (s.sp - 1) := rfl
@[simp] theorem decSp_pc (s : State) : (s.decSp).pc = s.pc := rfl
@[simp] theorem decSp_fl (s : State) : (s.decSp).fl = s.fl := rfl
@[simp] theorem decSp_running (s : State) : (s.decSp).running = s.running := rfl
@[simp] theorem decSp_errKind (s : State) : (s.decSp).errKind = s.errKind := rfl
@[simp] theorem decSp_errPc (s : State) : (s.decSp).errPc = s.errPc := rfl
@[simp] theorem decSp_errOpcode (s : State) : (s.decSp).errOpcode = s.errOpcode := rfl
@[simp] theorem decSp_out (s : State) : (s.decSp).out = s.out := rfl

/-! ### incSp -/

@[simp] theorem incSp_mem (s : State) : (s.incSp).mem = s.mem := rfl
@[simp] theorem incSp_regs (s : State) : (s.incSp).regs = s.regs.set spIndex (s.sp + 1) := rfl
@[simp] theorem incSp_pc (s : State) : (s.incSp).pc = s.pc := rfl
@[simp] theorem incSp_fl (s : State) : (s.incSp).fl = s.fl := rfl
@[simp] theorem incSp_running (s : State) : (s.incSp).running = s.running := rfl
@[simp] theorem incSp_errKind (s : State) : (s.incSp).errKind = s.errKind := rfl
@[simp] theorem incSp_errPc (s : State) : (s.incSp).errPc = s.errPc := rfl
@[simp] theorem incSp_errOpcode (s : State) : (s.incSp).errOpcode = s.errOpcode := rfl
@[simp] theorem incSp_out (s : State) : (s.incSp).out = s.out := rfl

/-! ### advance -/

@[simp] theorem advance_mem (s : State) (m : Opcode) : (s.advance m).mem = s.mem := rfl
@[simp] theorem advance_regs (s : State) (m : Opcode) : (s.advance m).regs = s.regs := rfl
@[simp] theorem advance_pc (s : State) (m : Opcode) : (s.advance m).pc = s.nextPc m := rfl
@[simp] theorem advance_fl (s : State) (m : Opcode) : (s.advance m).fl = s.fl := rfl
@[simp] theorem advance_running (s : State) (m : Opcode) : (s.advance m).running = s.running := rfl
@[simp] theorem advance_errKind (s : State) (m : Opcode) : (s.advance m).errKind = s.errKind := rfl
@[simp] theorem advance_errPc (s : State) (m : Opcode) : (s.advance m).errPc = s.errPc := rfl
@[simp] theorem advance_errOpcode (s : State) (m : Opcode) : (s.advance m).errOpcode = s.errOpcode := rfl
@[simp] theorem advance_out (s : State) (m : Opcode) : (s.advance m).out = s.out := rfl

/-! ### jump -/

@[simp] theorem jump_mem (s : State) (v : Byte) : (s.jump v).mem = s.mem := rfl
@[simp] theorem jump_regs (s : State) (v : Byte) : (s.jump v).regs = s.regs := rfl
@[simp] theorem jump_pc (s : State) (v : Byte) : (s.jump v).pc = zextPc v := rfl
@[simp] theorem jump_fl (s : State) (v : Byte) : (s.jump v).fl = s.fl := rfl
@[simp] theorem jump_running (s : State) (v : Byte) : (s.jump v).running = s.running := rfl
@[simp] theorem jump_errKind (s : State) (v : Byte) : (s.jump v).errKind = s.errKind := rfl
@[simp] theorem jump_errPc (s : State) (v : Byte) : (s.jump v).errPc = s.errPc := rfl
@[simp] theorem jump_errOpcode (s : State) (v : Byte) : (s.jump v).errOpcode = s.errOpcode := rfl
@[simp] theorem jump_out (s : State) (v : Byte) : (s.jump v).out = s.out := rfl

/-! ### Register reads after each update -/

@[simp] theorem reg_setReg_same (s : State) (r : RegIndex) (v : Byte) : (s.setReg r v).reg r = v := by
  simp [State.reg, State.setReg]

theorem reg_setReg_other (s : State) {r q : RegIndex} (v : Byte) (h : q ≠ r) : (s.setReg r v).reg q = s.reg q := by
  have hv : (r : Nat) ≠ q := fun e => h (Fin.ext e.symm)
  simp [State.reg, State.setReg, hv]

theorem reg_setReg (s : State) (r q : RegIndex) (v : Byte) :
    (s.setReg r v).reg q = if q = r then v else s.reg q := by
  by_cases h : q = r
  · subst h; simp
  · simp [h, reg_setReg_other s v h]

/-- Two states with the same register file read alike. -/
theorem reg_congr {s t : State} (h : t.regs = s.regs) (r : RegIndex) : t.reg r = s.reg r := by
  simp [State.reg, h]

@[simp] theorem reg_setCell (s : State) (a : Nat) (v : Byte) (q : RegIndex) : (s.setCell a v).reg q = s.reg q := rfl
@[simp] theorem sp_setCell (s : State) (a : Nat) (v : Byte) : (s.setCell a v).sp = s.sp := rfl
@[simp] theorem reg_setPc (s : State) (p : PcWord) (q : RegIndex) : (s.setPc p).reg q = s.reg q := rfl
@[simp] theorem sp_setPc (s : State) (p : PcWord) : (s.setPc p).sp = s.sp := rfl
@[simp] theorem reg_setFl (s : State) (f : Flag) (q : RegIndex) : (s.setFl f).reg q = s.reg q := rfl
@[simp] theorem sp_setFl (s : State) (f : Flag) : (s.setFl f).sp = s.sp := rfl
@[simp] theorem reg_halt (s : State) (q : RegIndex) : (s.halt).reg q = s.reg q := rfl
@[simp] theorem sp_halt (s : State) : (s.halt).sp = s.sp := rfl
@[simp] theorem reg_emit (s : State) (v : Byte) (q : RegIndex) : (s.emit v).reg q = s.reg q := rfl
@[simp] theorem sp_emit (s : State) (v : Byte) : (s.emit v).sp = s.sp := rfl
@[simp] theorem reg_raise (s : State) (k : ErrKind) (op : Byte) (q : RegIndex) : (raise k op s).reg q = s.reg q := rfl
@[simp] theorem sp_raise (s : State) (k : ErrKind) (op : Byte) : (raise k op s).sp = s.sp := rfl
@[simp] theorem reg_advance (s : State) (m : Opcode) (q : RegIndex) : (s.advance m).reg q = s.reg q := rfl
@[simp] theorem sp_advance (s : State) (m : Opcode) : (s.advance m).sp = s.sp := rfl
@[simp] theorem reg_jump (s : State) (v : Byte) (q : RegIndex) : (s.jump v).reg q = s.reg q := rfl
@[simp] theorem sp_jump (s : State) (v : Byte) : (s.jump v).sp = s.sp := rfl

@[simp] theorem sp_setSp (s : State) (v : Byte) : (s.setSp v).sp = v := reg_setReg_same s spIndex v

@[simp] theorem sp_decSp (s : State) : s.decSp.sp = s.sp - 1 := sp_setSp s _

@[simp] theorem sp_incSp (s : State) : s.incSp.sp = s.sp + 1 := sp_setSp s _

theorem reg_setSp (s : State) (q : RegIndex) (v : Byte) :
    (s.setSp v).reg q = if q = spIndex then v else s.reg q := reg_setReg s spIndex q v

theorem reg_decSp (s : State) (q : RegIndex) :
    s.decSp.reg q = if q = spIndex then s.sp - 1 else s.reg q := reg_setReg s spIndex q _

theorem reg_incSp (s : State) (q : RegIndex) :
    s.incSp.reg q = if q = spIndex then s.sp + 1 else s.reg q := reg_setReg s spIndex q _

end Sys2Proof.Machine
end

