-- ==== Sys2Proof/Laws/Ops.lean ====
section
/-! SUPPORT. For each shared operation of the machine, what it can do, said once. -/

namespace Sys2Proof.Machine

/-! ### Memory access -/

theorem memRead_in (s : State) {a : Nat} (h : a < Config.memSize) : memRead s a = .ok (readCell s.mem a) := by
  simp [memRead, h]

theorem memRead_out (s : State) {a : Nat} (h : Config.memSize ≤ a) : memRead s a = .error .outOfRange := by
  simp [memRead, Nat.not_lt.mpr h]

theorem memWrite_in (s : State) {a : Nat} (v : Byte) (h : a < Config.memSize) : memWrite s a v = .ok (s.setCell a v) := by
  simp [memWrite, h]

theorem memWrite_out (s : State) {a : Nat} (v : Byte) (h : Config.memSize ≤ a) :
    memWrite s a v = .error .outOfRange := by
  simp [memWrite, Nat.not_lt.mpr h]

/-- Every byte value is an address of memory (00_scope.md R7(a)). -/
theorem byte_lt_memSize (a : Byte) : a.toNat < Config.memSize := a.isLt

/-! ### The stack sequences: they never fail (43_stack.md R113) -/

/-- The push sequence: the cell below the stack pointer takes the byte, the stack pointer moves to it (R109). -/
theorem push_eq (v : Byte) (s : State) : push v s = .ok (s.decSp.setCell (s.sp - 1).toNat v) := by
  simp only [push, storeTop, memWrite_in _ _ (byte_lt_memSize _), sp_decSp]

theorem loadTop_eq (s : State) : loadTop s = .ok (readCell s.mem s.sp.toNat) := memRead_in s (byte_lt_memSize _)

/-- The pop sequence: the byte at the stack pointer, which then moves up; memory is not touched (R110). -/
theorem pop_eq (s : State) : pop s = .ok (readCell s.mem s.sp.toNat, s.incSp) := by
  simp only [pop, loadTop_eq]

/-! ### Operand checks -/

theorem checkReg_ok {a : Byte} (h : a.toNat < Config.numRegs) : checkReg a = .ok ⟨a.toNat, h⟩ := by
  simp [checkReg, h]

theorem checkReg_bad {a : Byte} (h : Config.numRegs ≤ a.toNat) : checkReg a = .error .outOfRange := by
  simp [checkReg, Nat.not_lt.mpr h]

theorem withReg_ok {a : Byte} (h : a.toNat < Config.numRegs) (f : RegIndex → Except ErrKind State) :
    withReg a f = f ⟨a.toNat, h⟩ := by
  simp only [withReg, checkReg_ok h]

theorem withReg_bad {a : Byte} (h : Config.numRegs ≤ a.toNat) (f : RegIndex → Except ErrKind State) :
    withReg a f = .error .outOfRange := by
  simp only [withReg, checkReg_bad h]

theorem withRegs_ok {a b : Byte} (ha : a.toNat < Config.numRegs) (hb : b.toNat < Config.numRegs)
    (f : RegIndex → RegIndex → Except ErrKind State) : withRegs a b f = f ⟨a.toNat, ha⟩ ⟨b.toNat, hb⟩ := by
  simp only [withRegs, withReg_ok ha, withReg_ok hb]

theorem withRegs_bad {a b : Byte} (h : Config.numRegs ≤ a.toNat ∨ Config.numRegs ≤ b.toNat)
    (f : RegIndex → RegIndex → Except ErrKind State) : withRegs a b f = .error .outOfRange := by
  unfold withRegs
  by_cases ha : a.toNat < Config.numRegs
  · rw [withReg_ok ha, withReg_bad (by omega)]
  · rw [withReg_bad (by omega)]

/-! ### How an execute rule ends -/

@[simp] theorem complete_ok (m : Opcode) (s t : State) : complete m s (.ok t) = .next t := rfl

@[simp] theorem complete_error (m : Opcode) (s : State) (k : ErrKind) :
    complete m s (.error k) = .next (raise k (opcodeByte m) s) := rfl

/-- An execute rule ends in a next state: its own, or the fatal-error entry from the state it began in. -/
theorem complete_cases {m : Opcode} {s t : State} {r : Except ErrKind State} (h : complete m s r = .next t) :
    r = .ok t ∨ ∃ k, r = .error k ∧ t = raise k (opcodeByte m) s := by
  cases r with
  | ok u => left; simpa using h
  | error k => right; exact ⟨k, rfl, by simpa using h.symm⟩

/-! ### The ALU and branches -/

theorem commitAlu_add (d : RegIndex) (x y : Byte) (s : State) :
    commitAlu d (alu .add x y) s = s.setReg d (BitVec.ofNat 8 (x.toNat + y.toNat)) := rfl

theorem commitAlu_mul (d : RegIndex) (x y : Byte) (s : State) :
    commitAlu d (alu .mul x y) s = s.setReg d (BitVec.ofNat 8 (x.toNat * y.toNat)) := rfl

theorem commitAlu_cmp (d : RegIndex) (x y : Byte) (s : State) :
    commitAlu d (alu .cmp x y) s = s.setFl (compareFlag x y) := rfl

theorem branch_taken (m : Opcode) (r : RegIndex) (s : State) : branch m true r s = s.jump (s.reg r) := rfl

theorem branch_fallsThrough (m : Opcode) (r : RegIndex) (s : State) : branch m false r s = s.advance m := rfl

theorem compareFlag_equal_iff (x y : Byte) : compareFlag x y = .equal ↔ x = y := by
  unfold compareFlag
  split
  · simp [*]
  · split <;> simp [*]

theorem compareFlag_greater_iff (x y : Byte) : compareFlag x y = .greater ↔ y.toNat < x.toNat := by
  unfold compareFlag
  split
  · next e => subst e; simp
  · split <;> simp [*]

theorem compareFlag_less_iff (x y : Byte) : compareFlag x y = .less ↔ x.toNat < y.toNat := by
  unfold compareFlag
  split
  · next e => subst e; simp
  · next e =>
    have hne : x.toNat ≠ y.toNat := fun h => e (BitVec.eq_of_toNat_eq h)
    split
    · simp; omega
    · simp; omega

theorem isEqual_iff (f : Flag) : f.isEqual = true ↔ f = .equal := by cases f <;> simp [Flag.isEqual]

/-! ### Where the sequential advance goes, instruction by instruction (10_state.md R23) -/

theorem nextPc_ldi (s : State) : s.nextPc .ldi = s.pc + 3 := rfl
theorem nextPc_prn (s : State) : s.nextPc .prn = s.pc + 2 := rfl
theorem nextPc_hlt (s : State) : s.nextPc .hlt = s.pc + 1 := rfl
theorem nextPc_mul (s : State) : s.nextPc .mul = s.pc + 3 := rfl
theorem nextPc_add (s : State) : s.nextPc .add = s.pc + 3 := rfl
theorem nextPc_push (s : State) : s.nextPc .push = s.pc + 2 := rfl
theorem nextPc_pop (s : State) : s.nextPc .pop = s.pc + 2 := rfl
theorem nextPc_call (s : State) : s.nextPc .call = s.pc + 2 := rfl
theorem nextPc_ret (s : State) : s.nextPc .ret = s.pc + 1 := rfl
theorem nextPc_cmp (s : State) : s.nextPc .cmp = s.pc + 3 := rfl
theorem nextPc_jmp (s : State) : s.nextPc .jmp = s.pc + 2 := rfl
theorem nextPc_jeq (s : State) : s.nextPc .jeq = s.pc + 2 := rfl
theorem nextPc_jne (s : State) : s.nextPc .jne = s.pc + 2 := rfl

end Sys2Proof.Machine
end

