-- ==== Sys2Proof/Laws/Decode.lean ====
section
/-! SUPPORT. The laws of the opcode table and of the fetch. -/

namespace Sys2Proof

/-- The opcode match finds every byte of the table. -/
@[simp] theorem matchOpcode_opcodeByte (m : Opcode) : matchOpcode (opcodeByte m) = some m := by cases m <;> rfl

/-- What the opcode match finds has that byte. -/
theorem opcodeByte_of_matchOpcode {op : Byte} {m : Opcode} (h : matchOpcode op = some m) : opcodeByte m = op := by
  simpa using List.find?_some h

theorem mem_allOpcodes (m : Opcode) : m ∈ allOpcodes := by cases m <;> decide

/-- A byte the opcode match does not find is no byte of the table. -/
theorem matchOpcode_eq_none_iff (op : Byte) : matchOpcode op = none ↔ ∀ m, op ≠ opcodeByte m := by
  constructor
  · intro h m e
    rw [e, matchOpcode_opcodeByte] at h
    cases h
  · intro h
    simp only [matchOpcode, List.find?_eq_none, beq_iff_eq]
    exact fun m _ e => h m e.symm

/-- No opcode of the table has the operand count 3 (30_encoding.md R54). -/
theorem operandCount_opcodeByte_le (m : Opcode) : operandCount (opcodeByte m) ≤ 2 := by cases m <;> decide

/-! The operand count of each instruction (30_encoding.md R58, column `n`). -/

@[simp] theorem operandCount_ldi : operandCount (opcodeByte .ldi) = 2 := by decide
@[simp] theorem operandCount_prn : operandCount (opcodeByte .prn) = 1 := by decide
@[simp] theorem operandCount_hlt : operandCount (opcodeByte .hlt) = 0 := by decide
@[simp] theorem operandCount_mul : operandCount (opcodeByte .mul) = 2 := by decide
@[simp] theorem operandCount_add : operandCount (opcodeByte .add) = 2 := by decide
@[simp] theorem operandCount_push : operandCount (opcodeByte .push) = 1 := by decide
@[simp] theorem operandCount_pop : operandCount (opcodeByte .pop) = 1 := by decide
@[simp] theorem operandCount_call : operandCount (opcodeByte .call) = 1 := by decide
@[simp] theorem operandCount_ret : operandCount (opcodeByte .ret) = 0 := by decide
@[simp] theorem operandCount_cmp : operandCount (opcodeByte .cmp) = 2 := by decide
@[simp] theorem operandCount_jmp : operandCount (opcodeByte .jmp) = 1 := by decide
@[simp] theorem operandCount_jeq : operandCount (opcodeByte .jeq) = 1 := by decide
@[simp] theorem operandCount_jne : operandCount (opcodeByte .jne) = 1 := by decide

namespace Machine

theorem bytesFrom_in (s : State) (n : Nat) {a : Nat} (h : a < Config.memSize) :
    bytesFrom s (n + 1) a = readCell s.mem a :: bytesFrom s n (a + 1) := by
  simp only [bytesFrom, memRead_in s h]

theorem bytesFrom_out (s : State) (n : Nat) {a : Nat} (h : Config.memSize ≤ a) : bytesFrom s n a = [] := by
  cases n with
  | zero => rfl
  | succ n => simp only [bytesFrom, memRead_out s h]

/-- Past the end of memory there is no opcode byte. -/
theorem fetchBytes_out (s : State) (h : Config.memSize ≤ s.pc.toNat) : fetchBytes s = [] := bytesFrom_out s _ h

/-- Inside memory the first byte fetched is the cell at `pc`. -/
theorem fetchBytes_in (s : State) (h : s.pc.toNat < Config.memSize) :
    fetchBytes s = readCell s.mem s.pc.toNat :: bytesFrom s 2 (s.pc.toNat + 1) := bytesFrom_in s 2 h

/-- The fetch reads memory and `pc` only. -/
theorem fetchBytes_congr {s t : State} (hm : t.mem = s.mem) (hp : t.pc = s.pc) : fetchBytes t = fetchBytes s := by
  have h : ∀ n a, bytesFrom t n a = bytesFrom s n a := by
    intro n
    induction n with
    | zero => intro a; rfl
    | succ n ih => intro a; simp only [bytesFrom, memRead, hm, ih]
  simp only [fetchBytes, hp, h]

theorem fetchInstr_congr {s t : State} (hm : t.mem = s.mem) (hp : t.pc = s.pc) : fetchInstr t = fetchInstr s := by
  simp only [fetchInstr, fetchBytes_congr hm hp]

end Machine

end Sys2Proof
end

