-- ==== Sys2Proof/Laws/PerInstr.lean ====
section
/-! SUPPORT. A family of statements about every instruction as syntax: its encoding is as long as the top two bits of its
opcode byte say (30_encoding.md R54, R55). -/

namespace Sys2Proof.Laws.EncodingLength

/-- The instruction's bytes are the opcode byte and as many operand bytes as its top two bits count. -/
def Statement (i : Instr) : Prop :=
  (encode i).length = 1 + operandCount (opcodeByte (opcodeOf i)) ∧ i.regOperands.length ≤ (operandBytes i).length

theorem ldi (a imm : Byte) : Statement (.ldi a imm) :=
  ⟨show 3 = 1 + operandCount (opcodeByte .ldi) by rw [operandCount_ldi], show 1 ≤ 2 by decide⟩
theorem prn (a : Byte) : Statement (.prn a) :=
  ⟨show 2 = 1 + operandCount (opcodeByte .prn) by rw [operandCount_prn], show 1 ≤ 1 by decide⟩
theorem hlt : Statement .hlt :=
  ⟨show 1 = 1 + operandCount (opcodeByte .hlt) by rw [operandCount_hlt], show 0 ≤ 0 by decide⟩
theorem mul (a b : Byte) : Statement (.mul a b) :=
  ⟨show 3 = 1 + operandCount (opcodeByte .mul) by rw [operandCount_mul], show 2 ≤ 2 by decide⟩
theorem add (a b : Byte) : Statement (.add a b) :=
  ⟨show 3 = 1 + operandCount (opcodeByte .add) by rw [operandCount_add], show 2 ≤ 2 by decide⟩
theorem push (a : Byte) : Statement (.push a) :=
  ⟨show 2 = 1 + operandCount (opcodeByte .push) by rw [operandCount_push], show 1 ≤ 1 by decide⟩
theorem pop (a : Byte) : Statement (.pop a) :=
  ⟨show 2 = 1 + operandCount (opcodeByte .pop) by rw [operandCount_pop], show 1 ≤ 1 by decide⟩
theorem call (a : Byte) : Statement (.call a) :=
  ⟨show 2 = 1 + operandCount (opcodeByte .call) by rw [operandCount_call], show 1 ≤ 1 by decide⟩
theorem ret : Statement .ret :=
  ⟨show 1 = 1 + operandCount (opcodeByte .ret) by rw [operandCount_ret], show 0 ≤ 0 by decide⟩
theorem cmp (a b : Byte) : Statement (.cmp a b) :=
  ⟨show 3 = 1 + operandCount (opcodeByte .cmp) by rw [operandCount_cmp], show 2 ≤ 2 by decide⟩
theorem jmp (a : Byte) : Statement (.jmp a) :=
  ⟨show 2 = 1 + operandCount (opcodeByte .jmp) by rw [operandCount_jmp], show 1 ≤ 1 by decide⟩
theorem jeq (a : Byte) : Statement (.jeq a) :=
  ⟨show 2 = 1 + operandCount (opcodeByte .jeq) by rw [operandCount_jeq], show 1 ≤ 1 by decide⟩
theorem jne (a : Byte) : Statement (.jne a) :=
  ⟨show 2 = 1 + operandCount (opcodeByte .jne) by rw [operandCount_jne], show 1 ≤ 1 by decide⟩

end Sys2Proof.Laws.EncodingLength
end

