-- ==== Sys2Proof/Laws/Step.lean ====
section
/-! SUPPORT. What one step can do, said once. -/

namespace Sys2Proof.Machine

theorem step_halted {s : State} (h : s.running = false) : step s = .next s := by
  simp [step, h, idle]

theorem step_fetched {s : State} {i : Instr} (hr : s.running = true) (h : fetchInstr s = .ok i) :
    step s = exec i s := by
  simp only [step, hr, h, if_true]

theorem step_fetchFailed {s : State} {e : DecodeError} (hr : s.running = true) (h : fetchInstr s = .error e) :
    step s = .next (fetchRaise e s) := by
  simp only [step, hr, h, if_true]

/-- A step that answers a next state was one of three: a HALTED machine that stays as it is, a fetch or decode that failed,
or the execution of the instruction fetched. -/
theorem step_cases {s t : State} (h : step s = .next t) :
    (s.running = false ∧ t = s) ∨
    (∃ e, s.running = true ∧ fetchInstr s = .error e ∧ t = fetchRaise e s) ∨
    (∃ i, s.running = true ∧ fetchInstr s = .ok i ∧ exec i s = .next t) := by
  cases hr : s.running with
  | false =>
    rw [step_halted hr] at h
    exact .inl ⟨rfl, by simpa using h.symm⟩
  | true =>
    cases hf : fetchInstr s with
    | ok i => exact .inr (.inr ⟨i, rfl, rfl, by rw [← step_fetched hr hf]; exact h⟩)
    | error e =>
      rw [step_fetchFailed hr hf] at h
      exact .inr (.inl ⟨e, rfl, rfl, by simpa using h.symm⟩)

end Sys2Proof.Machine
end

