-- ==== Sys2Proof/Tests/Slice0.lean ====
section
/-! SUPPORT. Tests on fixed values, each from spec/95_test_vectors.md (V<n>, S<n>) or from a table of the rule named, and
the witnesses that the statements' hypotheses can be met. -/

namespace Sys2Proof.Tests

open Sys2Proof.Machine

/-! ### Helpers -/

/-- The reset state, RUNNING, at an address, with bytes placed there. -/
def at' (pc : PcWord) (bytes : List Byte) : State := placeAtFetch { State.reset with pc := pc } bytes

/-- The state with these registers set (R0, R1, R2, R3, SP). -/
def withRegs' (r0 r1 r2 r3 sp : Byte) (s : State) : State :=
  ((((s.setReg 0 r0).setReg 1 r1).setReg 2 r2).setReg 3 r3).setSp sp

/-- The state after one step (the same state if the step stopped; no step does). -/
def after (s : State) : State :=
  match step s with
  | .next t => t
  | .fault _ => s
  | .refused _ => s

/-- The error record and the running flag of a state, as the vectors write them. -/
def err (s : State) : ErrKind × PcWord × Byte × Bool := (s.errKind, s.errPc, s.errOpcode, s.running)

/-! ### The constraints between the parameters (R7) -/

theorem test_parameters : Config.memSize = 2 ^ 8 ∧ Config.numRegs ≤ 256 ∧ spIndex.val = Config.numRegs - 1 ∧
    Config.memSize - 1 + 3 < 2 ^ 9 := by decide

/-! ### WellFormed: an ill-formed term for each check (R56, R86) -/

theorem test_illFormed_ldi : (Instr.ldi 8 0).wellFormed = false := by decide
theorem test_illFormed_prn : (Instr.prn 0xFF).wellFormed = false := by decide
theorem test_illFormed_mul_first : (Instr.mul 8 0).wellFormed = false := by decide
theorem test_illFormed_mul_second : (Instr.mul 0 8).wellFormed = false := by decide
theorem test_illFormed_add_first : (Instr.add 9 0).wellFormed = false := by decide
theorem test_illFormed_add_second : (Instr.add 0 9).wellFormed = false := by decide
theorem test_illFormed_push : (Instr.push 8).wellFormed = false := by decide
theorem test_illFormed_pop : (Instr.pop 8).wellFormed = false := by decide
theorem test_illFormed_call : (Instr.call 8).wellFormed = false := by decide
theorem test_illFormed_cmp_first : (Instr.cmp 0x80 0).wellFormed = false := by decide
theorem test_illFormed_cmp_second : (Instr.cmp 0 8).wellFormed = false := by decide
theorem test_illFormed_jmp : (Instr.jmp 8).wellFormed = false := by decide
theorem test_illFormed_jeq : (Instr.jeq 8).wellFormed = false := by decide
theorem test_illFormed_jne : (Instr.jne 8).wellFormed = false := by decide
/-- The immediate has no illegal value (R64); HLT and RET have nothing to check. -/
theorem test_wellFormed : (Instr.ldi 7 0xFF).wellFormed = true ∧ Instr.hlt.wellFormed = true ∧
    Instr.ret.wellFormed = true ∧ (Instr.cmp 7 7).wellFormed = true := by decide

/-! ### Decoding: every constructor by a word written out from the binary column of R58 -/

theorem test_decode_ldi : decode [0b10000010, 0b00000011, 0b11111111] = .ok (.ldi 3 255, []) := rfl
theorem test_decode_prn : decode [0b01000111, 0b00000111, 0b00000001] = .ok (.prn 7, [1]) := rfl
theorem test_decode_hlt : decode [0b00000001] = .ok (.hlt, []) := rfl
theorem test_decode_mul : decode [0b10100010, 0b00000001, 0b00000010] = .ok (.mul 1 2, []) := rfl
theorem test_decode_add : decode [0b10100000, 0b00000001, 0b00000010] = .ok (.add 1 2, []) := rfl
theorem test_decode_push : decode [0b01000101, 0b00000101] = .ok (.push 5, []) := rfl
theorem test_decode_pop : decode [0b01000110, 0b00000110] = .ok (.pop 6, []) := rfl
theorem test_decode_call : decode [0b01010000, 0b00000001] = .ok (.call 1, []) := rfl
theorem test_decode_ret : decode [0b00010001] = .ok (.ret, []) := rfl
theorem test_decode_cmp : decode [0b10100111, 0b00000100, 0b00000011] = .ok (.cmp 4 3, []) := rfl
theorem test_decode_jmp : decode [0b01010100, 0b00000010] = .ok (.jmp 2, []) := rfl
theorem test_decode_jeq : decode [0b01010101, 0b00000010] = .ok (.jeq 2, []) := rfl
theorem test_decode_jne : decode [0b01010110, 0b00000010] = .ok (.jne 2, []) := rfl
/-- V60, V61, V62: 0x00, 0xC0 and LS-8's LD are unknown opcodes. -/
theorem test_decode_unknown : decode [0x00] = .error (.unknownOpcode 0x00) ∧
    decode [0xC0, 0, 0] = .error (.unknownOpcode 0xC0) ∧ decode [0x83, 0, 1] = .error (.unknownOpcode 0x83) :=
  ⟨rfl, rfl, rfl⟩
theorem test_decode_truncated : decode [] = .error .noOpcode ∧ decode [0x47] = .error (.missingOperandA 0x47) ∧
    decode [0x82] = .error (.missingOperandA 0x82) ∧ decode [0x82, 0] = .error (.missingOperandB 0x82) :=
  ⟨rfl, rfl, rfl, rfl⟩
/-- The table's numbering: the first byte is bits 7..0 (LDI r1,9 is 82 01 09). -/
theorem test_decodeTableWord : decodeTableWord 24 0x090182 = some (.ldi 1 9) ∧ decodeTableWord 8 0x11 = some .ret ∧
    decodeTableWord 8 0xA2 = some (.mul 0 0) ∧ decodeTableWord 8 0x00 = none := by decide
/-- The host's placement runs the instruction as the first after reset (S1's LDI). -/
theorem test_withFetchWord : (after (State.reset.withFetchWord 24 0x410082)).reg 0 = 0x41 := by decide

/-! ### Instructions -/

/-- V1, V2. -/
theorem test_ldi : (after (at' 0 [0x82, 3, 0xFF])).reg 3 = 0xFF ∧ (after (at' 0 [0x82, 7, 0x80])).sp = 0x80 ∧
    (after (at' 0 [0x82, 3, 0xFF])).pc = 3 := by decide
/-- V5, V6. -/
theorem test_ldi_edge : (after (at' 253 [0x82, 0, 7])).pc = 256 ∧
    err (after (at' 254 [0x82, 0])) = (.outOfRange, 254, 0x82, false) := by decide
/-- V7, V8. -/
theorem test_prn : (after (withRegs' 0xC8 0 0 0 0xF4 (at' 0 [0x47, 0]))).out = [200] ∧
    (after (at' 0 [0x47, 7])).out = [244] := by decide
/-- V9. -/
theorem test_prn_badIndex : err (after (at' 0 [0x47, 0xFF])) = (.outOfRange, 0, 0x47, false) ∧
    (after (at' 0 [0x47, 0xFF])).out = [] := by decide
/-- V10, V11. -/
theorem test_hlt : (after (at' 11 [1])).pc = 12 ∧ err (after (at' 11 [1])) = (.none, 0, 0, false) ∧
    (after (at' 255 [1])).pc = 256 := by decide
/-- V13, V15. -/
theorem test_mul : (after (withRegs' 0xFF 0xFF 0 0 0xF4 (at' 0 [0xA2, 0, 1]))).reg 0 = 0x01 ∧
    (after (withRegs' 200 3 0 0 0xF4 (at' 0 [0xA2, 0, 1]))).reg 0 = 0x58 := by decide
/-- V17: source and destination the same. -/
theorem test_mul_same : (after (withRegs' 0 0 13 0 0xF4 (at' 0 [0xA2, 2, 2]))).reg 2 = 0xA9 := by decide
/-- V18, V22. -/
theorem test_add : (after (withRegs' 250 10 0 0 0xF4 (at' 0 [0xA0, 0, 1]))).reg 0 = 4 ∧
    (after (withRegs' 0 4 0 0 0xF4 (at' 0 [0xA0, 7, 1]))).sp = 0xF8 := by decide
/-- V21, V24. -/
theorem test_add_same_and_bad : (after (withRegs' 0 0 0 0x90 0xF4 (at' 0 [0xA0, 3, 3]))).reg 3 = 0x20 ∧
    err (after (at' 0 [0xA0, 8, 9])) = (.outOfRange, 0, 0xA0, false) := by decide
/-- V25, V26, V27. -/
theorem test_cmp : (after (withRegs' 5 5 0 0 0xF4 (at' 0 [0xA7, 0, 1]))).fl = .equal ∧
    (after (withRegs' 5 9 0 0 0xF4 (at' 0 [0xA7, 0, 1]))).fl = .less ∧
    (after (withRegs' 0xFF 1 0 0 0xF4 (at' 0 [0xA7, 0, 1]))).fl = .greater := by decide
/-- V30. -/
theorem test_cmp_badIndex : (after ((at' 0 [0xA7, 0, 8]).setFl .greater)).fl = .greater ∧
    err (after (at' 0 [0xA7, 0, 8])) = (.outOfRange, 0, 0xA7, false) := by decide
/-- V31, V33: the stack pointer wraps. -/
theorem test_push : readCell (after (withRegs' 0x2A 0 0 0 0xF4 (at' 0 [0x45, 0]))).mem 0xF3 = 0x2A ∧
    (after (withRegs' 0x11 0 0 0 0 (at' 0 [0x45, 0]))).sp = 0xFF ∧
    readCell (after (withRegs' 0x11 0 0 0 0 (at' 0 [0x45, 0]))).mem 0xFF = 0x11 := by decide
/-- V32: PUSH r7 stores the decremented stack pointer. -/
theorem test_push_sp : readCell (after (at' 0 [0x45, 7])).mem 0xF3 = 0xF3 := by decide
/-- V34, V36. -/
theorem test_pop : (after (withRegs' 0 0 0 0 0xF3 ((at' 0 [0x46, 1]).setCell 0xF3 0x2A))).reg 1 = 0x2A ∧
    (after (withRegs' 0 0 0 0 0xFF ((at' 0 [0x46, 2]).setCell 0xFF 0x77))).sp = 0 := by decide
/-- V35: POP r7 leaves the popped byte plus one. -/
theorem test_pop_sp : (after (withRegs' 0 0 0 0 0xF3 ((at' 0 [0x46, 7]).setCell 0xF3 0x10))).sp = 0x11 := by decide
/-- V39, V41: at 254 the return address wraps to 0. -/
theorem test_call : (after (withRegs' 0 0x18 0 0 0xF4 (at' 6 [0x50, 1]))).pc = 0x18 ∧
    readCell (after (withRegs' 0 0x18 0 0 0xF4 (at' 6 [0x50, 1]))).mem 0xF3 = 8 ∧
    readCell (after (withRegs' 0 0x18 0 0 0xF4 ((at' 254 [0x50, 1]).setCell 0xF3 0xAA))).mem 0xF3 = 0 := by decide
/-- V40, V42. -/
theorem test_call_sp : (after (at' 6 [0x50, 7])).pc = 0xF3 ∧
    err (after (at' 255 [0x50])) = (.outOfRange, 255, 0x50, false) ∧ (after (at' 255 [0x50])).sp = 0xF4 := by decide
/-- V43, V44. -/
theorem test_ret : (after (withRegs' 0 0 0 0 0xF3 ((at' 0x18 [0x11]).setCell 0xF3 8))).pc = 8 ∧
    (after (at' 0x20 [0x11])).pc = 0 ∧ (after (at' 0x20 [0x11])).sp = 0xF5 := by decide
/-- V45, V46. -/
theorem test_jmp : (after (withRegs' 0 0 0x10 0 0xF4 (at' 5 [0x54, 2]))).pc = 0x10 ∧
    (after (withRegs' 0 0 5 0 0xF4 (at' 5 [0x54, 2]))).pc = 5 := by decide
/-- V47, V48, V49. -/
theorem test_jeq : (after (withRegs' 0 0 0x20 0 0xF4 (at' 10 [0x55, 2]))).pc = 12 ∧
    (after ((withRegs' 0 0 0x20 0 0xF4 (at' 10 [0x55, 2])).setFl .equal)).pc = 0x20 ∧
    (after ((withRegs' 0 0 0x20 0 0xF4 (at' 10 [0x55, 2])).setFl .greater)).pc = 12 := by decide
/-- V55: the index is checked although the branch would not be taken. -/
theorem test_jeq_badIndex : err (after ((at' 10 [0x55, 8]).setFl .less)) = (.outOfRange, 10, 0x55, false) := by decide
/-- V51, V52, V54. -/
theorem test_jne : (after (withRegs' 0 0 0 0x0C 0xF4 (at' 0x15 [0x56, 3]))).pc = 0x0C ∧
    (after ((withRegs' 0 0 0 0x0C 0xF4 (at' 0x15 [0x56, 3])).setFl .equal)).pc = 0x17 ∧
    (after ((withRegs' 0 0 0 0x0C 0xF4 (at' 0x15 [0x56, 3])).setFl .less)).pc = 0x0C := by decide

/-! ### Errors and the host -/

/-- V60, V61, V65. -/
theorem test_unknownOpcode : err (after (at' 0 [])) = (.unknownOpcode, 0, 0, false) ∧
    err (after (at' 255 [0xC0])) = (.unknownOpcode, 255, 0xC0, false) ∧
    err (after (at' 255 [0xFF])) = (.unknownOpcode, 255, 0xFF, false) := by decide
/-- V63, V64. -/
theorem test_fetchOutOfRange : err (after (at' 256 [])) = (.outOfRange, 256, 0, false) ∧
    err (after (at' 255 [0x47])) = (.outOfRange, 255, 0x47, false) := by decide
/-- V66: HALTED, nothing changes; reset does not start a run (R146). -/
theorem test_halted : after State.reset = State.reset := by decide
/-- V70. -/
theorem test_load : (hostLoad [0x82, 0, 8] State.reset).mem = [(0, 0x82), (2, 8)] := by decide
/-- V72: run() with an error latched does nothing. -/
theorem test_run_latched : hostRun (raise .unknownOpcode 0 State.reset) = raise .unknownOpcode 0 State.reset := by decide
/-- V73: reset() leaves the trace. -/
theorem test_reset_out : hostReset (at' 9 [0x82, 1, 1]|>.emit 5) = State.reset.emit 5 := by decide

/-! ### Witnesses: a concrete state and operands for the hypotheses of each statement, clause by clause -/

/-- LDI r0,65 at 0, RUNNING. -/
def sLdi : State := at' 0 [0x82, 0, 0x41]
/-- PRN r0 at 0, RUNNING. -/
def sPrn : State := at' 0 [0x47, 0]
/-- HLT at 255, RUNNING. -/
def sHlt : State := at' 255 [0x01]
/-- An unknown opcode at 255, RUNNING. -/
def sBad : State := at' 255 [0xC0]
/-- A machine HALTED by an unknown opcode. -/
def sLatched : State := after sBad

theorem witness_ResetLeavesTheStatedValues : (6 : RegIndex) ≠ spIndex ∧ State.reset.out = [] := by decide
theorem witness_StepKeepsTheInvariant : sLdi.Inv ∧ step sLdi = .next (after sLdi) := ⟨by decide, rfl⟩
theorem witness_StepKeepsTheInvariant_pastTheEnd :
    (at' 256 []).Inv ∧ step (at' 256 []) = .next (after (at' 256 [])) := ⟨by decide, rfl⟩
theorem witness_HostOperationsKeepTheInvariant : sLatched.Inv ∧ State.reset.Inv := by decide
theorem witness_ReachableStatesMeetTheInvariant :
    Reachable (after (hostRun (hostLoad [0x47] State.reset))) ∧ (after (hostRun (hostLoad [0x46, 9] State.reset))).Faulted :=
  ⟨.stepped (.started (.loaded [0x47] .constructed)) rfl, by decide⟩
theorem witness_LoadFillsMemoryFromZero_accepted : State.reset.mem.wf = true ∧ State.reset.running = false ∧
    (List.replicate 256 255).length ≤ 256 ∧ ∀ w ∈ List.replicate 256 255, w < 256 :=
  ⟨rfl, rfl, Nat.le_of_eq List.length_replicate, fun w h => by rw [List.eq_of_mem_replicate h]; decide⟩
theorem witness_LoadFillsMemoryFromZero_refused : sLdi.running = true ∧ 256 < (List.replicate 257 0).length ∧
    ∃ w ∈ [256], 256 ≤ w := ⟨rfl, by rw [List.length_replicate]; decide, 256, by decide, by decide⟩
theorem witness_RunSetsOnlyTheRunningFlag : (State.reset.running = false ∧ State.reset.errKind = .none) ∧
    sLdi.running = true ∧ sLatched.errKind ≠ .none := by decide
theorem witness_HaltedMachineChangesNothing : State.reset.running = false := rfl
theorem witness_LatchedErrorIsLeftOnlyByReset : sLatched.running = false ∧ sLatched.Faulted := by decide
theorem witness_DecodedBytesAreTheEncoding : decode [0x46, 6, 1] = .ok (.pop 6, [1]) := rfl
theorem witness_TopTwoBitsCountTheOperandBytes : operandCount 0xC0 = 3 ∧ operandCount 0xFF = 3 := by decide
theorem witness_DecodingMatchesTheWholeOpcodeByte : decode [opcodeByte .jeq, 9] = .ok (.jeq 9, []) ∧
    (∀ m, (0x00 : Byte) ≠ opcodeByte m) ∧ opcodeByte .ret = opcodeByte .ret :=
  ⟨rfl, fun m => by cases m <;> decide, rfl⟩
theorem witness_StepRunsTheDecodedInstruction : sLdi.running = true ∧ decode (fetchBytes sLdi) = .ok (.ldi 0 65, []) :=
  ⟨rfl, rfl⟩
theorem witness_FetchBeyondMemoryIsOutOfRange : ((at' 256 []).running = true ∧ 256 ≤ (at' 256 []).pc.toNat) ∧
    (at' 255 []).pc.toNat < 256 := by decide
theorem witness_UnknownOpcodeIsFatal : sBad.running = true ∧ sBad.pc.toNat < 256 ∧
    ∀ m, readCell sBad.mem sBad.pc.toNat ≠ opcodeByte m := ⟨rfl, by decide, fun m => by cases m <;> decide⟩
theorem witness_OperandFetchReadsTheCountedCells_inside :
    readCell (at' 253 [0x82, 1, 2]).mem 253 = opcodeByte .ldi ∧ 253 + operandCount (opcodeByte .ldi) < 256 := by decide
theorem witness_OperandFetchReadsTheCountedCells_outside : (at' 254 [0x82, 1]).running = true ∧
    (at' 254 [0x82, 1]).pc.toNat < 256 ∧ readCell (at' 254 [0x82, 1]).mem 254 = opcodeByte .ldi ∧
    256 ≤ 254 + operandCount (opcodeByte .ldi) := by decide
theorem witness_BadRegisterIndexIsOutOfRange : (Instr.add 7 8).wellFormed = false := by decide
theorem witness_WellFormedInstructionCompletes : (Instr.add 7 7).wellFormed = true ∧ Instr.add 7 7 ≠ .hlt := by decide
theorem witness_ErrorsArePrecise : sBad.errKind = .none ∧ step sBad = .next sLatched ∧ sLatched.Faulted :=
  ⟨rfl, rfl, by decide⟩
theorem witness_RunEndsByHltOrError_hlt : sHlt.running = true ∧ sHlt.errKind = .none ∧
    step sHlt = .next (after sHlt) ∧ (after sHlt).running = false := ⟨rfl, rfl, rfl, rfl⟩
theorem witness_RunEndsByHltOrError_error : sBad.running = true ∧ sBad.errKind = .none ∧
    step sBad = .next sLatched ∧ sLatched.running = false := ⟨rfl, rfl, rfl, rfl⟩
theorem witness_MoreFuelGivesTheSameEnd : runFor 1 { sHlt with running := false } = .next (after sHlt) ∧
    (after sHlt).running = false := ⟨rfl, rfl⟩
/-- The operands of every statement about an instruction: 7 is the last register, 8 the first that is none. -/
theorem witness_registerOperands : (0 : Byte).toNat < 8 ∧ (7 : Byte).toNat < 8 ∧ 8 ≤ (8 : Byte).toNat ∧
    8 ≤ (0xFF : Byte).toNat ∧ (6 : Byte).toNat ≠ 7 ∧ (7 : Byte).toNat = 7 := by decide
/-- The hypotheses of OperandPastEndRaises at the bound each statement gives. -/
theorem witness_operandPastEnd_three : ∀ m ∈ [Opcode.ldi, .mul, .add, .cmp],
    (at' 254 [opcodeByte m]).running = true ∧ 254 ≤ (at' 254 [opcodeByte m]).pc.toNat ∧
    (at' 254 [opcodeByte m]).pc.toNat < Config.memSize ∧
    readCell (at' 254 [opcodeByte m]).mem (at' 254 [opcodeByte m]).pc.toNat = opcodeByte m := by decide
theorem witness_operandPastEnd_two : ∀ m ∈ [Opcode.prn, .push, .pop, .call, .jmp, .jeq, .jne],
    (at' 255 [opcodeByte m]).running = true ∧ 255 ≤ (at' 255 [opcodeByte m]).pc.toNat ∧
    (at' 255 [opcodeByte m]).pc.toNat < Config.memSize ∧
    readCell (at' 255 [opcodeByte m]).mem (at' 255 [opcodeByte m]).pc.toNat = opcodeByte m := by decide
theorem witness_HltEndsTheRun : sHlt.running = true ∧ sHlt.errKind = .none ∧ sHlt.pc.toNat < 256 ∧
    readCell sHlt.mem sHlt.pc.toNat = opcodeByte .hlt := by decide
/-- MUL, ADD and CMP: both operands valid, the two the same, R[b] = 0xFF; and each operand invalid. -/
theorem witness_twoOperands : ((7 : Byte).toNat < 8 ∧ (0 : Byte).toNat < 8) ∧
    (withRegs' 1 0xFF 0 0 0xF4 sLdi).reg 1 = 0xFF ∧ ((8 : Byte).toNat ≥ 8 ∨ (0 : Byte).toNat ≥ 8) ∧
    ((0 : Byte).toNat ≥ 8 ∨ (8 : Byte).toNat ≥ 8) := by decide
/-- PUSH, POP, CALL on a canonical memory; PUSH then POP. -/
theorem witness_PushThenPopRestoresTheRegisters : (7 : Byte).toNat < 8 ∧ sLdi.mem.wf = true := by decide
theorem witness_PushedByteIsSeenByTheNextFetch : (0 : Byte).toNat < 8 ∧ (0 : Byte).toNat ≠ 7 ∧
    (withRegs' 1 0 0 0 3 (at' 0 [0x45, 0])).mem.wf = true ∧
    ((withRegs' 1 0 0 0 3 (at' 0 [0x45, 0])).sp - 1).toNat = (withRegs' 1 0 0 0 3 (at' 0 [0x45, 0])).pc.toNat + 2 := by
  decide
theorem witness_CallThenRetReturns : (7 : Byte).toNat < 8 ∧ (at' 253 [0x50, 7]).mem.wf = true ∧
    (at' 253 [0x50, 7]).pc.toNat + 2 < 256 := by decide
theorem witness_JeqAndJne_bothWays : (sLdi.setFl .equal).fl = .equal ∧ sLdi.fl ≠ .equal ∧
    (sLdi.setFl .greater).fl ≠ .equal ∧ (sLdi.setFl .less).fl ≠ .equal := by decide
theorem witness_JmpToItselfNeverEnds : (2 : Byte).toNat < 8 ∧
    (withRegs' 0 0 5 0 0xF4 (at' 5 [0x54, 2])).running = true ∧
    fetchInstr (withRegs' 0 0 5 0 0xF4 (at' 5 [0x54, 2])) = .ok (.jmp 2) ∧
    ((withRegs' 0 0 5 0 0xF4 (at' 5 [0x54, 2])).reg 2).toNat = (withRegs' 0 0 5 0 0xF4 (at' 5 [0x54, 2])).pc.toNat :=
  ⟨by decide, rfl, rfl, by decide⟩
theorem witness_FlagsAreWrittenByCmpAndReadByBranches : exec (.ldi 0 65) sLdi = .next (after sLdi) ∧
    (∀ a b, Instr.ldi 0 65 ≠ .cmp a b) ∧ (∀ a, Instr.ldi 0 65 ≠ .jeq a) ∧ (∀ a, Instr.ldi 0 65 ≠ .jne a) ∧
    exec (.cmp 0 1) (at' 0 [0xA7, 0, 1]) = .next (after (at' 0 [0xA7, 0, 1])) ∧ (Instr.cmp 0 1).wellFormed = true ∧
    exec (.cmp 0 8) (at' 0 [0xA7, 0, 8]) = .next (after (at' 0 [0xA7, 0, 8])) ∧ (Instr.cmp 0 8).wellFormed = false ∧
    sBad.errKind = .none ∧ step sBad = .next sLatched ∧ sLatched.Faulted :=
  ⟨rfl, by simp, by simp, by simp, rfl, rfl, rfl, rfl, rfl, rfl, by decide⟩
theorem witness_OnlyTheNamedRegistersAreWritten : exec (.pop 1) (at' 0 [0x46, 1]) = .next (after (at' 0 [0x46, 1])) ∧
    writesReg (.pop 1) 0 = false := ⟨rfl, by decide⟩
theorem witness_OnlyPushAndCallStore : exec (.push 0) (at' 0 [0x45, 0]) = .next (after (at' 0 [0x45, 0])) ∧
    0xF4 ∉ [(at' 0 [0x45, 0]).decSp.sp.toNat] := ⟨rfl, by decide⟩
theorem witness_OnlyPrnEmits : step sPrn = .next (after sPrn) ∧ (after sPrn).out = [0] := ⟨rfl, by decide⟩
theorem witness_OutputTraceIsNeverRead : step sPrn = .next (after sPrn) := rfl
theorem witness_ErrorRecordIsNeverRead : sBad.errKind = .none ∧ step sBad = .next sLatched := ⟨rfl, rfl⟩

end Sys2Proof.Tests
end

section
/-! SUPPORT. What executing one instruction can do, said once for all thirteen: it completes with the effects its rule
writes out, or one of its register operands names no register and it takes the fatal-error entry. -/

namespace Sys2Proof.Machine

/-- `i` completes from `s` in the state its execute rule gives: one case per rule (R97 to R99, R102 to R104, R111, R112,
R115 to R119), under the premise that each register operand names a register. -/
inductive Completes : Instr → State → State → Prop where
  | ldi {a : Byte} (imm : Byte) {s : State} (ha : a.toNat < Config.numRegs) :
      Completes (.ldi a imm) s ((s.setReg ⟨a.toNat, ha⟩ imm).advance .ldi)
  | prn {a : Byte} {s : State} (ha : a.toNat < Config.numRegs) :
      Completes (.prn a) s ((s.emit (s.reg ⟨a.toNat, ha⟩)).advance .prn)
  | hlt {s : State} : Completes .hlt s (s.halt.advance .hlt)
  | mul {a b : Byte} {s : State} (ha : a.toNat < Config.numRegs) (hb : b.toNat < Config.numRegs) :
      Completes (.mul a b) s ((s.setReg ⟨a.toNat, ha⟩
        (BitVec.ofNat 8 ((s.reg ⟨a.toNat, ha⟩).toNat * (s.reg ⟨b.toNat, hb⟩).toNat))).advance .mul)
  | add {a b : Byte} {s : State} (ha : a.toNat < Config.numRegs) (hb : b.toNat < Config.numRegs) :
      Completes (.add a b) s ((s.setReg ⟨a.toNat, ha⟩
        (BitVec.ofNat 8 ((s.reg ⟨a.toNat, ha⟩).toNat + (s.reg ⟨b.toNat, hb⟩).toNat))).advance .add)
  | push {a : Byte} {s : State} (ha : a.toNat < Config.numRegs) :
      Completes (.push a) s ((s.decSp.setCell (s.sp - 1).toNat (s.decSp.reg ⟨a.toNat, ha⟩)).advance .push)
  | pop {a : Byte} {s : State} (ha : a.toNat < Config.numRegs) :
      Completes (.pop a) s ((s.setReg ⟨a.toNat, ha⟩ (readCell s.mem s.sp.toNat)).incSp.advance .pop)
  | call {a : Byte} {s : State} (ha : a.toNat < Config.numRegs) :
      Completes (.call a) s
        ((s.decSp.setCell (s.sp - 1).toNat (returnByte s)).jump (s.decSp.reg ⟨a.toNat, ha⟩))
  | ret {s : State} : Completes .ret s (s.incSp.jump (readCell s.mem s.sp.toNat))
  | cmp {a b : Byte} {s : State} (ha : a.toNat < Config.numRegs) (hb : b.toNat < Config.numRegs) :
      Completes (.cmp a b) s
        ((s.setFl (compareFlag (s.reg ⟨a.toNat, ha⟩) (s.reg ⟨b.toNat, hb⟩))).advance .cmp)
  | jmp {a : Byte} {s : State} (ha : a.toNat < Config.numRegs) :
      Completes (.jmp a) s (s.jump (s.reg ⟨a.toNat, ha⟩))
  | jeq {a : Byte} {s : State} (ha : a.toNat < Config.numRegs) :
      Completes (.jeq a) s (branch .jeq s.fl.isEqual ⟨a.toNat, ha⟩ s)
  | jne {a : Byte} {s : State} (ha : a.toNat < Config.numRegs) :
      Completes (.jne a) s (branch .jne (!s.fl.isEqual) ⟨a.toNat, ha⟩ s)

/-! ### The two ends of `exec` -/

/-- An instruction whose register operands all exist completes (R86, R113). -/
theorem exists_completes {i : Instr} (hw : i.wellFormed = true) (s : State) : ∃ t, Completes i s t := by
  cases i <;> simp only [Instr.wellFormed, Instr.regOperands, validReg, List.all_cons, List.all_nil, Bool.and_true,
    Bool.and_eq_true, decide_eq_true_eq] at hw
  case ldi a imm => exact ⟨_, .ldi imm hw⟩
  case prn a => exact ⟨_, .prn hw⟩
  case hlt => exact ⟨_, .hlt⟩
  case mul a b => exact ⟨_, .mul hw.1 hw.2⟩
  case add a b => exact ⟨_, .add hw.1 hw.2⟩
  case push a => exact ⟨_, .push hw⟩
  case pop a => exact ⟨_, .pop hw⟩
  case call a => exact ⟨_, .call hw⟩
  case ret => exact ⟨_, .ret⟩
  case cmp a b => exact ⟨_, .cmp hw.1 hw.2⟩
  case jmp a => exact ⟨_, .jmp hw⟩
  case jeq a => exact ⟨_, .jeq hw⟩
  case jne a => exact ⟨_, .jne hw⟩

/-- `Completes` is what `exec` computes. -/
theorem Completes.exec_eq {i : Instr} {s t : State} (h : Completes i s t) : exec i s = .next t := by
  cases h with
  | ldi imm ha => simp only [exec, execLdi, withReg_ok ha, complete_ok]
  | prn ha => simp only [exec, execPrn, withReg_ok ha, complete_ok]
  | hlt => rfl
  | mul ha hb => simp only [exec, execMul, aluInstr, withRegs_ok ha hb, commitAlu_mul, complete_ok]
  | add ha hb => simp only [exec, execAdd, aluInstr, withRegs_ok ha hb, commitAlu_add, complete_ok]
  | push ha => simp only [exec, execPush, withReg_ok ha, push_eq, complete_ok]
  | pop ha => simp only [exec, execPop, withReg_ok ha, loadTop_eq, complete_ok]
  | call ha => simp only [exec, execCall, withReg_ok ha, push_eq, reg_setCell, complete_ok]
  | ret => simp only [exec, execRet, pop_eq, complete_ok]
  | cmp ha hb => simp only [exec, execCmp, aluInstr, withRegs_ok ha hb, commitAlu_cmp, complete_ok]
  | jmp ha => simp only [exec, execJmp, withReg_ok ha, complete_ok]
  | jeq ha => simp only [exec, execJeq, withReg_ok ha, complete_ok]
  | jne ha => simp only [exec, execJne, withReg_ok ha, complete_ok]

/-- An instruction with a register operand that names no register takes the fatal-error entry (R86). -/
theorem exec_illFormed {i : Instr} (hw : i.wellFormed = false) (s : State) :
    exec i s = .next (raise .outOfRange (opcodeByte (opcodeOf i)) s) := by
  cases i <;> simp only [Instr.wellFormed, Instr.regOperands, validReg, List.all_cons, List.all_nil, Bool.and_true,
    Bool.and_eq_false_iff, decide_eq_false_iff_not, not_lt, Bool.true_eq_false] at hw
  case ldi a imm => simp only [exec, execLdi, withReg_bad hw, complete_error, opcodeOf]
  case prn a => simp only [exec, execPrn, withReg_bad hw, complete_error, opcodeOf]
  case mul a b => simp only [exec, execMul, aluInstr, withRegs_bad hw, complete_error, opcodeOf]
  case add a b => simp only [exec, execAdd, aluInstr, withRegs_bad hw, complete_error, opcodeOf]
  case push a => simp only [exec, execPush, withReg_bad hw, complete_error, opcodeOf]
  case pop a => simp only [exec, execPop, withReg_bad hw, complete_error, opcodeOf]
  case call a => simp only [exec, execCall, withReg_bad hw, complete_error, opcodeOf]
  case cmp a b => simp only [exec, execCmp, aluInstr, withRegs_bad hw, complete_error, opcodeOf]
  case jmp a => simp only [exec, execJmp, withReg_bad hw, complete_error, opcodeOf]
  case jeq a => simp only [exec, execJeq, withReg_bad hw, complete_error, opcodeOf]
  case jne a => simp only [exec, execJne, withReg_bad hw, complete_error, opcodeOf]

/-- An instruction that answers a next state completed, or it was ill-formed and raised OutOfRange. -/
theorem exec_cases {i : Instr} {s t : State} (h : exec i s = .next t) :
    (i.wellFormed = true ∧ Completes i s t) ∨
    (i.wellFormed = false ∧ t = raise .outOfRange (opcodeByte (opcodeOf i)) s) := by
  cases hw : i.wellFormed with
  | true =>
    obtain ⟨u, hu⟩ := exists_completes hw s
    rw [hu.exec_eq] at h
    cases h
    exact .inl ⟨rfl, hu⟩
  | false =>
    rw [exec_illFormed hw] at h
    cases h
    exact .inr ⟨rfl, rfl⟩

end Sys2Proof.Machine
end

section
/-! SUPPORT. The flags register (10_state.md R26): who writes it and who reads it. -/

namespace Sys2Proof.Machine

@[simp] theorem branch_fl (m : Opcode) (c : Bool) (r : RegIndex) (s : State) : (branch m c r s).fl = s.fl := by
  cases c <;> rfl

@[simp] theorem branch_errKind (m : Opcode) (c : Bool) (r : RegIndex) (s : State) :
    (branch m c r s).errKind = s.errKind := by
  cases c <;> rfl

theorem compareFlag_ne_none (x y : Byte) : compareFlag x y ≠ .none := by
  unfold compareFlag
  split
  · simp
  · split <;> simp

/-! ### What an instruction that completes does to `FL` and to the error kind -/

theorem Completes.fl_of_ne_cmp {i : Instr} {s t : State} (h : Completes i s t) (hcmp : ∀ a b, i ≠ .cmp a b) :
    t.fl = s.fl := by
  cases h with
  | cmp => exact absurd rfl (hcmp _ _)
  | _ => simp

theorem Completes.cmp_fl_ne_none {a b : Byte} {s t : State} (h : Completes (.cmp a b) s t) : t.fl ≠ .none := by
  cases h with
  | cmp ha hb => simpa using compareFlag_ne_none _ _

/-- An instruction that completes raises nothing: the error kind stays. -/
theorem Completes.errKind {i : Instr} {s t : State} (h : Completes i s t) : t.errKind = s.errKind := by
  cases h <;> simp

/-- An instruction that neither writes nor tests `FL` carries any value of it through. -/
theorem Completes.setFl {i : Instr} {s t : State} (h : Completes i s t) (f : Flag) (hjeq : ∀ a, i ≠ .jeq a)
    (hjne : ∀ a, i ≠ .jne a) (hcmp : ∀ a b, i ≠ .cmp a b) : Completes i (s.setFl f) (t.setFl f) := by
  cases h with
  | ldi imm ha => exact .ldi imm ha
  | prn ha => exact .prn ha
  | hlt => exact .hlt
  | mul ha hb => exact .mul ha hb
  | add ha hb => exact .add ha hb
  | push ha => exact .push ha
  | pop ha => exact .pop ha
  | call ha => exact .call ha
  | ret => exact .ret
  | cmp => exact absurd rfl (hcmp _ _)
  | jmp ha => exact .jmp ha
  | jeq => exact absurd rfl (hjeq _)
  | jne => exact absurd rfl (hjne _)

/-- CMP overwrites `FL` without reading it. -/
theorem Completes.cmp_setFl {a b : Byte} {s t : State} (h : Completes (.cmp a b) s t) (f : Flag) :
    Completes (.cmp a b) (s.setFl f) t := by
  cases h with
  | cmp ha hb => exact .cmp (s := s.setFl f) ha hb

/-! ### The same of `exec`, of a step and of the host's operations -/

theorem exec_fl_of_ne_cmp {i : Instr} {s t : State} (h : exec i s = .next t) (hcmp : ∀ a b, i ≠ .cmp a b) :
    t.fl = s.fl := by
  obtain ⟨-, hc⟩ | ⟨-, rfl⟩ := exec_cases h
  · exact hc.fl_of_ne_cmp hcmp
  · rfl

theorem exec_cmp_fl {a b : Byte} {s t : State} (h : exec (.cmp a b) s = .next t) :
    ((Instr.cmp a b).wellFormed = true → t.fl ≠ .none) ∧ ((Instr.cmp a b).wellFormed = false → t.fl = s.fl) := by
  obtain ⟨hw, hc⟩ | ⟨hw, rfl⟩ := exec_cases h
  · exact ⟨fun _ => hc.cmp_fl_ne_none, fun hw' => by simp [hw] at hw'⟩
  · exact ⟨fun hw' => by simp [hw] at hw', fun _ => rfl⟩

/-- Only the fatal-error entry latches an error, and it keeps `FL`. -/
theorem step_fl_of_faulted {s t : State} (hs : s.errKind = .none) (h : step s = .next t) (ht : t.Faulted) :
    t.fl = s.fl := by
  obtain ⟨-, rfl⟩ | ⟨e, -, -, rfl⟩ | ⟨i, -, -, he⟩ := step_cases h
  · rfl
  · rfl
  · obtain ⟨-, hc⟩ | ⟨-, rfl⟩ := exec_cases he
    · exact absurd (hc.errKind.trans hs) ht
    · rfl

theorem exec_setFl {i : Instr} {s t : State} (h : exec i s = .next t) (f : Flag) (hjeq : ∀ a, i ≠ .jeq a)
    (hjne : ∀ a, i ≠ .jne a) (hcmp : ∀ a b, i ≠ .cmp a b) : exec i (s.setFl f) = .next (t.setFl f) := by
  obtain ⟨-, hc⟩ | ⟨hw, rfl⟩ := exec_cases h
  · exact (hc.setFl f hjeq hjne hcmp).exec_eq
  · exact exec_illFormed hw (s.setFl f)

theorem exec_cmp_setFl {a b : Byte} (hw : (Instr.cmp a b).wellFormed = true) (f : Flag) (s : State) :
    exec (.cmp a b) (s.setFl f) = exec (.cmp a b) s := by
  obtain ⟨t, ht⟩ := exists_completes hw s
  exact (ht.cmp_setFl f).exec_eq.trans ht.exec_eq.symm

@[simp] theorem hostReset_fl (s : State) : (hostReset s).fl = .none := rfl

@[simp] theorem hostRun_fl (s : State) : (hostRun s).fl = s.fl := by
  unfold hostRun
  split <;> rfl

@[simp] theorem hostLoad_fl (words : List Nat) (s : State) : (hostLoad words s).fl = s.fl := by
  unfold hostLoad
  split <;> rfl

/-- Settles O44: each clause is a case of `exec_cases`, `step_cases` or a host operation. -/
theorem flagsAreWrittenByCmpAndReadByBranches : Obligations.FlagsAreWrittenByCmpAndReadByBranches :=
  ⟨fun _ _ _ h hcmp => exec_fl_of_ne_cmp h hcmp,
    fun _ _ _ _ h => exec_cmp_fl h,
    fun _ _ hs h ht => step_fl_of_faulted hs h ht,
    fun _ f _ _ h hjeq hjne hcmp => exec_setFl h f hjeq hjne hcmp,
    fun _ _ f s hw => exec_cmp_setFl hw f s,
    fun s => ⟨hostReset_fl s, hostRun_fl s, fun words => hostLoad_fl words s⟩⟩

end Sys2Proof.Machine
end

section
/-! SUPPORT. The opcode byte (30_encoding.md R54, R61): what the decoder answers for a byte of the table and for any other,
and what the top two bits of the byte count. -/

namespace Sys2Proof

/-! ### The opcode match -/

/-- No two opcodes share a byte (R59(b)). -/
theorem opcodeByte_injective : Function.Injective opcodeByte := by
  intro m m' h
  have hs : some m = some m' := by rw [← matchOpcode_opcodeByte m, h, matchOpcode_opcodeByte]
  exact Option.some.inj hs

@[simp] theorem opcodeOf_assemble (m : Opcode) (a b : Byte) : opcodeOf (assemble m a b) = m := by cases m <;> rfl

/-- A byte that is none of the table's is an unknown opcode, whatever follows it (R62, R84). -/
theorem decode_unknownOpcode {op : Byte} (h : ∀ m, op ≠ opcodeByte m) (rest : List Byte) :
    decode (op :: rest) = .error (.unknownOpcode op) := by
  simp only [decode, (matchOpcode_eq_none_iff op).mpr h]

/-- Once the opcode has matched, the decoder answers an instruction of that opcode, or an operand byte is missing
(R84, R85). -/
theorem decode_opcodeByte_cases (m : Opcode) (rest : List Byte) :
    (∃ a b rest', decode (opcodeByte m :: rest) = .ok (assemble m a b, rest')) ∨
    decode (opcodeByte m :: rest) = .error (.missingOperandA (opcodeByte m)) ∨
    decode (opcodeByte m :: rest) = .error (.missingOperandB (opcodeByte m)) := by
  simp only [decode, matchOpcode_opcodeByte]
  split
  case h_1 => exact .inl ⟨0, 0, _, rfl⟩
  case h_2 => exact .inr (.inl rfl)
  case h_3 => exact .inl ⟨_, 0, _, rfl⟩
  case h_4 => exact .inr (.inr rfl)
  case h_5 => exact .inl ⟨_, _, _, rfl⟩

/-- A byte of the table selects its opcode, whatever the operand bytes are. -/
theorem opcodeOf_of_decode_opcodeByte {m : Opcode} {rest rest' : List Byte} {i : Instr}
    (h : decode (opcodeByte m :: rest) = .ok (i, rest')) : opcodeOf i = m := by
  obtain ⟨a, b, rest'', hd⟩ | hd | hd := decode_opcodeByte_cases m rest
  · cases hd.symm.trans h
    exact opcodeOf_assemble m a b
  · cases hd.symm.trans h
  · cases hd.symm.trans h

theorem decode_opcodeByte_ne_unknownOpcode (m : Opcode) (rest : List Byte) (op : Byte) :
    decode (opcodeByte m :: rest) ≠ .error (.unknownOpcode op) := by
  obtain ⟨a, b, rest', hd⟩ | hd | hd := decode_opcodeByte_cases m rest <;> simp [hd]

/-- Settles O13: the four clauses are the two answers of the decoder and the injectivity of the table. -/
theorem decodingMatchesTheWholeOpcodeByte : Obligations.DecodingMatchesTheWholeOpcodeByte :=
  ⟨fun _ _ _ _ h => opcodeOf_of_decode_opcodeByte h, decode_opcodeByte_ne_unknownOpcode,
    fun _ rest h => decode_unknownOpcode h rest, fun _ _ h => opcodeByte_injective h⟩

/-! ### The operand count -/

theorem operandCount_eq_div (op : Byte) : operandCount op = op.toNat / 64 := by
  have hlt : op.toNat / 64 < 4 := by omega
  simp [operandCount, BitVec.extractLsb'_toNat, Nat.shiftRight_eq_div_pow, Nat.mod_eq_of_lt hlt]

/-- Every instruction is as long as its opcode byte says (R54, R55): the per-instruction laws together. -/
theorem encodingLength_statement (i : Instr) : Laws.EncodingLength.Statement i := by
  cases i with
  | ldi a imm => exact Laws.EncodingLength.ldi a imm
  | prn a => exact Laws.EncodingLength.prn a
  | hlt => exact Laws.EncodingLength.hlt
  | mul a b => exact Laws.EncodingLength.mul a b
  | add a b => exact Laws.EncodingLength.add a b
  | push a => exact Laws.EncodingLength.push a
  | pop a => exact Laws.EncodingLength.pop a
  | call a => exact Laws.EncodingLength.call a
  | ret => exact Laws.EncodingLength.ret
  | cmp a b => exact Laws.EncodingLength.cmp a b
  | jmp a => exact Laws.EncodingLength.jmp a
  | jeq a => exact Laws.EncodingLength.jeq a
  | jne a => exact Laws.EncodingLength.jne a

theorem length_encode (i : Instr) : (encode i).length = 1 + operandCount (opcodeByte (opcodeOf i)) :=
  (encodingLength_statement i).1

/-- The sequential advance is the length of the encoding. -/
theorem Machine.nextPc_opcodeOf (i : Instr) (s : Machine.State) :
    s.nextPc (opcodeOf i) = s.pc + BitVec.ofNat 9 (encode i).length := by
  rw [length_encode, Machine.State.nextPc]

theorem operandCount_opcodeByte_ne_three (m : Opcode) : operandCount (opcodeByte m) ≠ 3 := by
  have h := operandCount_opcodeByte_le m
  omega

/-- A byte with the operand count 3 is no byte of the table. -/
theorem ne_opcodeByte_of_operandCount_eq_three {op : Byte} (h : operandCount op = 3) (m : Opcode) :
    op ≠ opcodeByte m := by
  rintro rfl
  exact operandCount_opcodeByte_ne_three m h

/-- Settles O12: the count is a division, the length law gives length and advance, and the table has no count 3. -/
theorem topTwoBitsCountTheOperandBytes : Obligations.TopTwoBitsCountTheOperandBytes :=
  ⟨operandCount_eq_div, length_encode, Machine.nextPc_opcodeOf,
    fun _ rest h => decode_unknownOpcode (ne_opcodeByte_of_operandCount_eq_three h) rest,
    fun i => operandCount_opcodeByte_ne_three (opcodeOf i)⟩

end Sys2Proof
end

section
/-! SUPPORT. The fetch (40_core_cycle_and_blocks.md R83, R85): which cells it reads, what the decoder makes of an opcode
byte and the operand bytes that were there, and the fatal error a failed fetch ends in. -/

namespace Sys2Proof

/-! ### A matched opcode with its operand bytes, and without them -/

/-- An instruction's bytes are its opcode byte and as many operand bytes as that counts. -/
theorem encode_assemble (m : Opcode) (a b : Byte) :
    encode (assemble m a b) = opcodeByte m :: [a, b].take (operandCount (opcodeByte m)) := by
  cases m <;> rfl

/-- With enough bytes behind it a matched opcode decodes, and its operands are the counted bytes and no more (R85). -/
theorem decode_opcodeByte_of_le_length {m : Opcode} {rest : List Byte}
    (h : operandCount (opcodeByte m) ≤ rest.length) :
    ∃ i rest', decode (opcodeByte m :: rest) = .ok (i, rest') ∧
      encode i = opcodeByte m :: rest.take (operandCount (opcodeByte m)) := by
  have hle := operandCount_opcodeByte_le m
  match hn : operandCount (opcodeByte m), rest with
  | 0, rest => exact ⟨assemble m 0 0, rest, by simp [decode, hn], by simp [encode_assemble, hn]⟩
  | 1, a :: rest => exact ⟨assemble m a 0, rest, by simp [decode, hn], by simp [encode_assemble, hn]⟩
  | 2, a :: b :: rest => exact ⟨assemble m a b, rest, by simp [decode, hn], by simp [encode_assemble, hn]⟩
  | 1, [] | 2, [] | 2, [_] => simp [hn] at h
  | _ + 3, _ => omega

/-- With too few bytes behind it a matched opcode is an error whose record is OutOfRange and that opcode byte (R85). -/
theorem decode_opcodeByte_of_length_lt {m : Opcode} {rest : List Byte}
    (h : rest.length < operandCount (opcodeByte m)) :
    ∃ e, decode (opcodeByte m :: rest) = .error e ∧ Machine.fetchFault e = (.outOfRange, opcodeByte m) := by
  have hle := operandCount_opcodeByte_le m
  match hn : operandCount (opcodeByte m), rest with
  | 1, [] | 2, [] => exact ⟨.missingOperandA (opcodeByte m), by simp [decode, hn], rfl⟩
  | 2, [a] => exact ⟨.missingOperandB (opcodeByte m), by simp [decode, hn], rfl⟩
  | 0, _ | 1, _ :: _ | 2, _ :: _ :: _ => simp [hn] at h
  | _ + 3, _ => omega

namespace Machine

/-! ### Which cells the fetch reads -/

/-- The bytes read are the cells at rising addresses, cut off where memory ends (R38). -/
theorem bytesFrom_eq_map_range (s : State) (n a : Nat) :
    bytesFrom s n a = (List.range (min n (Config.memSize - a))).map fun k => readCell s.mem (a + k) := by
  induction n generalizing a with
  | zero => simp [bytesFrom]
  | succ n ih =>
    by_cases h : a < Config.memSize
    · have hmin : min (n + 1) (Config.memSize - a) = min n (Config.memSize - (a + 1)) + 1 := by omega
      rw [bytesFrom_in s n h, ih, hmin, List.range_succ_eq_map]
      simp [Nat.add_assoc, Nat.add_comm 1]
    · have hmin : min (n + 1) (Config.memSize - a) = 0 := by omega
      rw [bytesFrom_out s _ (by omega), hmin]
      rfl

theorem length_bytesFrom (s : State) (n a : Nat) : (bytesFrom s n a).length = min n (Config.memSize - a) := by
  simp [bytesFrom_eq_map_range]

/-- The first `n` bytes fetched, where that many are in reach and in memory. -/
theorem take_fetchBytes (s : State) {n : Nat} (hlen : n ≤ Config.maxLength)
    (hmem : s.pc.toNat + n ≤ Config.memSize) :
    (fetchBytes s).take n = (List.range n).map fun k => readCell s.mem (s.pc.toNat + k) := by
  have hmin : min n (min Config.maxLength (Config.memSize - s.pc.toNat)) = n := by omega
  rw [fetchBytes, bytesFrom_eq_map_range, ← List.map_take, List.take_range, hmin]

/-! ### From the decoder's answer to the step -/

theorem fetchInstr_of_decode_ok {s : State} {i : Instr} {rest : List Byte}
    (h : decode (fetchBytes s) = .ok (i, rest)) : fetchInstr s = .ok i := by
  simp only [fetchInstr, h]

theorem fetchInstr_of_decode_error {s : State} {e : DecodeError} (h : decode (fetchBytes s) = .error e) :
    fetchInstr s = .error e := by
  simp only [fetchInstr, h]

/-- The fatal-error entry is what `Raises` says (R131). -/
theorem raises_raise (k : ErrKind) (op : Byte) (s : State) : Raises k op s (.next (raise k op s)) :=
  ⟨raise k op s, rfl, rfl, rfl, rfl, rfl, rfl, rfl, rfl, rfl, rfl⟩

/-- A running machine whose fetched bytes are no instruction raises the error that belongs to them. -/
theorem step_raises_of_decode_error {s : State} {e : DecodeError} {k : ErrKind} {op : Byte}
    (hr : s.running = true) (h : decode (fetchBytes s) = .error e) (he : fetchFault e = (k, op)) :
    Raises k op s (step s) := by
  rw [step_fetchFailed hr (fetchInstr_of_decode_error h), fetchRaise, he]
  exact raises_raise k op s

/-! ### The opcode fetch -/

/-- Settles O17: past the end the fetch gives no byte, inside memory its first byte is the cell at `pc`. -/
theorem fetchBeyondMemoryIsOutOfRange : Obligations.FetchBeyondMemoryIsOutOfRange := by
  refine ⟨fun s hr hpc => ?_, fun s hpc => ?_⟩
  · have hdec : decode (fetchBytes s) = .error .noOpcode := by rw [fetchBytes_out s hpc]; rfl
    exact step_raises_of_decode_error hr hdec rfl
  · rw [fetchBytes_in s hpc, List.head?_cons]

/-! ### The operand fetch -/

theorem fetchBytes_of_opcode {s : State} {m : Opcode} (hpc : s.pc.toNat < Config.memSize)
    (hop : readCell s.mem s.pc.toNat = opcodeByte m) :
    fetchBytes s = opcodeByte m :: bytesFrom s 2 (s.pc.toNat + 1) := by
  rw [fetchBytes_in s hpc, hop]

/-- A matched opcode with its operand bytes in memory is fetched with exactly the counted cells. -/
theorem fetchInstr_of_operands_in {s : State} {m : Opcode} (hop : readCell s.mem s.pc.toNat = opcodeByte m)
    (hin : s.pc.toNat + operandCount (opcodeByte m) < Config.memSize) :
    ∃ i, fetchInstr s = .ok i ∧ opcodeOf i = m ∧
      encode i = (List.range (1 + operandCount (opcodeByte m))).map fun k => readCell s.mem (s.pc.toNat + k) := by
  have hle := operandCount_opcodeByte_le m
  have hfetch := fetchBytes_of_opcode (by omega) hop
  have hlen : operandCount (opcodeByte m) ≤ (bytesFrom s 2 (s.pc.toNat + 1)).length := by
    rw [length_bytesFrom]; omega
  obtain ⟨i, rest, hdec, henc⟩ := decode_opcodeByte_of_le_length hlen
  refine ⟨i, fetchInstr_of_decode_ok (hfetch ▸ hdec), opcodeOf_of_decode_opcodeByte hdec, ?_⟩
  calc encode i
      = (fetchBytes s).take (1 + operandCount (opcodeByte m)) := by
        rw [henc, hfetch, Nat.add_comm 1, List.take_succ_cons]
    _ = _ := take_fetchBytes s (show _ ≤ 3 by omega) (by omega)

/-- A running machine with a matched opcode and an operand byte past the end of memory raises OutOfRange. -/
theorem step_raises_of_operands_out {s : State} {m : Opcode} (hr : s.running = true)
    (hpc : s.pc.toNat < Config.memSize) (hop : readCell s.mem s.pc.toNat = opcodeByte m)
    (hout : Config.memSize ≤ s.pc.toNat + operandCount (opcodeByte m)) :
    Raises .outOfRange (opcodeByte m) s (step s) := by
  have hfetch := fetchBytes_of_opcode hpc hop
  have hlen : (bytesFrom s 2 (s.pc.toNat + 1)).length < operandCount (opcodeByte m) := by
    rw [length_bytesFrom]; omega
  obtain ⟨e, hdec, he⟩ := decode_opcodeByte_of_length_lt hlen
  exact step_raises_of_decode_error hr (hfetch ▸ hdec) he

/-- Settles O19: the number of bytes that lie in memory decides between the two answers of the decoder. -/
theorem operandFetchReadsTheCountedCells : Obligations.OperandFetchReadsTheCountedCells :=
  ⟨fun _ _ hop hin => fetchInstr_of_operands_in hop hin,
    fun _ _ hr hpc hop hout => step_raises_of_operands_out hr hpc hop hout⟩

end Machine

end Sys2Proof
end

section
/-! SUPPORT. The clauses the statements about single instructions share: an opcode byte with its operand bytes decodes, a
register operand that names no register and an operand byte past the end of memory raise OutOfRange, and what an update
keeps is unchanged in the words of the frame predicates. -/

namespace Sys2Proof

/-! ### An opcode byte with its operand bytes (R55, R85) -/

theorem decode_oneOperand {m : Opcode} (h : operandCount (opcodeByte m) = 1) (a : Byte) (rest : List Byte) :
    decode (opcodeByte m :: a :: rest) = .ok (assemble m a 0, rest) := by
  simp only [decode, matchOpcode_opcodeByte, h]

theorem decode_twoOperands {m : Opcode} (h : operandCount (opcodeByte m) = 2) (a b : Byte) (rest : List Byte) :
    decode (opcodeByte m :: a :: b :: rest) = .ok (assemble m a b, rest) := by
  simp only [decode, matchOpcode_opcodeByte, h]

namespace Machine

/-! ### The two OutOfRange errors of an instruction (R85, R86) -/

theorem wellFormed_eq_false_of_mem {i : Instr} {a : Byte} (hmem : a ∈ i.regOperands) (ha : Config.numRegs ≤ a.toNat) :
    i.wellFormed = false := by
  have hbad : ¬ validReg a = true := by simpa [validReg] using ha
  exact List.all_eq_false.mpr ⟨a, hmem, hbad⟩

theorem exec_raises_of_mem {i : Instr} {a : Byte} (hmem : a ∈ i.regOperands) (ha : Config.numRegs ≤ a.toNat)
    (s : State) : Raises .outOfRange (opcodeByte (opcodeOf i)) s (exec i s) := by
  rw [exec_illFormed (wellFormed_eq_false_of_mem hmem ha)]
  exact raises_raise .outOfRange (opcodeByte (opcodeOf i)) s

/-- From the first address on whose last operand byte is past the end of memory, the operand fetch fails. -/
theorem operandPastEndRaises {m : Opcode} {first : Nat}
    (h : Config.memSize ≤ first + operandCount (opcodeByte m)) : OperandPastEndRaises m first :=
  fun _ hr hfirst hpc hop => step_raises_of_operands_out hr hpc hop (by omega)

/-! ### Frames -/

theorem regsKeptBut_of_regs_eq {s t : State} (h : t.regs = s.regs) (ds : List RegIndex) : RegsKeptBut ds s t :=
  fun r _ => reg_congr h r

theorem cellsKeptBut_of_mem_eq {s t : State} (h : t.mem = s.mem) (as : List Nat) : CellsKeptBut as s t :=
  fun a _ => congrArg (readCell · a) h

theorem regsKeptBut_setReg (s : State) (r : RegIndex) (v : Byte) : RegsKeptBut [r] s (s.setReg r v) :=
  fun _ hq => reg_setReg_other s v (List.ne_of_not_mem_cons hq)

end Machine

end Sys2Proof
end

section
/-! SUPPORT. LDI and PRN (41_data_output_halt.md R97, R98): the effect of each, and what it leaves unchanged. -/

namespace Sys2Proof.Machine

/-- The execute rule of LDI (R97) with its frame. -/
theorem exec_ldi_effect {a : Byte} (imm : Byte) (s : State) (ha : a.toNat < Config.numRegs) :
    ∃ t, exec (.ldi a imm) s = .next t ∧
      t.reg ⟨a.toNat, ha⟩ = imm ∧ RegsKeptBut [⟨a.toNat, ha⟩] s t ∧ t.pc = s.pc + 3 ∧
      CellsKeptBut [] s t ∧ t.fl = s.fl ∧ t.running = s.running ∧ RecordKept s t ∧ t.out = s.out := by
  refine ⟨_, (Completes.ldi imm ha).exec_eq, ?_, ?_, nextPc_ldi s, ?_, rfl, rfl, ⟨rfl, rfl, rfl⟩, rfl⟩
  · rw [reg_advance, reg_setReg_same]
  · exact regsKeptBut_setReg s ⟨a.toNat, ha⟩ imm
  · exact cellsKeptBut_of_mem_eq rfl []

/-- Settles O26: the decoder on two operand bytes, the effect, and the two OutOfRange errors. -/
theorem ldiLoadsTheImmediate : Obligations.LdiLoadsTheImmediate :=
  ⟨decode_twoOperands operandCount_ldi,
    fun _ imm s ha => exec_ldi_effect imm s ha,
    fun _ imm s ha => exec_raises_of_mem (i := .ldi _ imm) List.mem_cons_self ha s,
    operandPastEndRaises (by rw [operandCount_ldi])⟩

/-- The execute rule of PRN (R98) with its frame. -/
theorem exec_prn_effect {a : Byte} (s : State) (ha : a.toNat < Config.numRegs) :
    ∃ t, exec (.prn a) s = .next t ∧
      t.out = s.out ++ [s.reg ⟨a.toNat, ha⟩] ∧ RegsKeptBut [] s t ∧ t.pc = s.pc + 2 ∧
      CellsKeptBut [] s t ∧ t.fl = s.fl ∧ t.running = s.running ∧ RecordKept s t := by
  refine ⟨_, (Completes.prn ha).exec_eq, ?_, ?_, nextPc_prn s, ?_, rfl, rfl, ⟨rfl, rfl, rfl⟩⟩
  · rw [advance_out, emit_out]
  · exact regsKeptBut_of_regs_eq rfl []
  · exact cellsKeptBut_of_mem_eq rfl []

/-- Settles O27: the decoder on one operand byte, the effect, and the two OutOfRange errors. -/
theorem prnEmitsTheRegister : Obligations.PrnEmitsTheRegister :=
  ⟨decode_oneOperand operandCount_prn,
    fun _ s ha => exec_prn_effect s ha,
    fun _ s ha => exec_raises_of_mem (i := .prn _) List.mem_cons_self ha s,
    operandPastEndRaises (by rw [operandCount_prn])⟩

end Sys2Proof.Machine
end

section
/-! SUPPORT. MUL and ADD (42_alu.md R102, R103): the result modulo 256, and what both leave unchanged. -/

namespace Sys2Proof.Machine

/-- The index check of the format `RR` fails at either operand (R86). -/
theorem exec_raises_of_twoOperands {i : Instr} {a b : Byte} (hi : i.regOperands = [a, b])
    (h : Config.numRegs ≤ a.toNat ∨ Config.numRegs ≤ b.toNat) (s : State) :
    Raises .outOfRange (opcodeByte (opcodeOf i)) s (exec i s) := by
  obtain ha | hb := h
  · exact exec_raises_of_mem (by simp [hi]) ha s
  · exact exec_raises_of_mem (by simp [hi]) hb s

/-- A register write and the sequential advance change that register and `pc`, and nothing else. -/
theorem setReg_advance_frame (s : State) (r : RegIndex) (v : Byte) (m : Opcode) :
    RegsKeptBut [r] s ((s.setReg r v).advance m) ∧ ((s.setReg r v).advance m).pc = s.nextPc m ∧
      CellsKeptBut [] s ((s.setReg r v).advance m) ∧ ((s.setReg r v).advance m).fl = s.fl ∧
      ((s.setReg r v).advance m).running = s.running ∧ RecordKept s ((s.setReg r v).advance m) ∧
      ((s.setReg r v).advance m).out = s.out :=
  ⟨regsKeptBut_setReg s r v, rfl, cellsKeptBut_of_mem_eq rfl [], rfl, rfl, ⟨rfl, rfl, rfl⟩, rfl⟩

/-- What a register holds after an exact result `n` is written to it: `n` reduced to a byte (R105). -/
theorem toNat_reg_setReg_ofNat_advance (s : State) (r : RegIndex) (n : Nat) (m : Opcode) :
    (((s.setReg r (BitVec.ofNat 8 n)).advance m).reg r).toNat = n % 256 := by
  rw [reg_advance, reg_setReg_same, BitVec.toNat_ofNat]

/-- Settles O29: the decoder on two operand bytes, the product with its frame, and the two OutOfRange errors. -/
theorem mulMultipliesModulo256 : Obligations.MulMultipliesModulo256 :=
  ⟨decode_twoOperands operandCount_mul,
    fun _ _ s ha hb => ⟨_, (Completes.mul ha hb).exec_eq, toNat_reg_setReg_ofNat_advance s _ _ .mul,
      nextPc_mul s ▸ setReg_advance_frame s _ _ .mul⟩,
    fun a b s h => exec_raises_of_twoOperands (i := .mul a b) rfl h s,
    operandPastEndRaises (by rw [operandCount_mul])⟩

/-- Settles O30: the decoder on two operand bytes, the sum with its frame, and the two OutOfRange errors. -/
theorem addAddsModulo256 : Obligations.AddAddsModulo256 :=
  ⟨decode_twoOperands operandCount_add,
    fun _ _ s ha hb => ⟨_, (Completes.add ha hb).exec_eq, toNat_reg_setReg_ofNat_advance s _ _ .add,
      nextPc_add s ▸ setReg_advance_frame s _ _ .add⟩,
    fun a b s h => exec_raises_of_twoOperands (i := .add a b) rfl h s,
    operandPastEndRaises (by rw [operandCount_add])⟩

end Sys2Proof.Machine
end

section
/-! SUPPORT. RET and JMP (44_control_transfer.md R116, R117): where control goes, and what both leave unchanged. -/

namespace Sys2Proof

theorem decode_noOperand {m : Opcode} (h : operandCount (opcodeByte m) = 0) (rest : List Byte) :
    decode (opcodeByte m :: rest) = .ok (assemble m 0 0, rest) := by
  simp only [decode, matchOpcode_opcodeByte, h]

/-- Zero-extension keeps the value (R114). -/
@[simp] theorem toNat_zextPc (v : Byte) : (zextPc v).toNat = v.toNat := by
  rw [zextPc, BitVec.toNat_setWidth_of_le (by decide)]

namespace Machine

/-- A transfer of control goes to the address that is the whole 8-bit value (R114). -/
theorem toNat_jump_pc (s : State) (v : Byte) : (s.jump v).pc.toNat = v.toNat := by
  rw [jump_pc, toNat_zextPc]

/-- The execute rule of RET (R116) with its frame. -/
theorem exec_ret_effect (s : State) :
    ∃ t, exec .ret s = .next t ∧ t.pc.toNat = (readCell s.mem s.sp.toNat).toNat ∧ t.sp = s.sp + 1 ∧
      RegsKeptBut [spIndex] s t ∧ CellsKeptBut [] s t ∧
      t.fl = s.fl ∧ t.running = s.running ∧ RecordKept s t ∧ t.out = s.out := by
  refine ⟨_, Completes.ret.exec_eq, toNat_jump_pc s.incSp _, ?_, ?_, ?_, rfl, rfl, ⟨rfl, rfl, rfl⟩, rfl⟩
  · rw [sp_jump, sp_incSp]
  · exact regsKeptBut_setReg s spIndex (s.sp + 1)
  · exact cellsKeptBut_of_mem_eq rfl []

/-- Settles O38: the decoder on no operand byte, and the effect. -/
theorem retGoesToTheTopOfTheStack : Obligations.RetGoesToTheTopOfTheStack :=
  ⟨decode_noOperand operandCount_ret, exec_ret_effect⟩

/-- The execute rule of JMP (R117) with its frame. -/
theorem exec_jmp_effect {a : Byte} (s : State) (ha : a.toNat < Config.numRegs) :
    ∃ t, exec (.jmp a) s = .next t ∧
      t.pc.toNat = (s.reg ⟨a.toNat, ha⟩).toNat ∧ RegsKeptBut [] s t ∧ CellsKeptBut [] s t ∧
      t.fl = s.fl ∧ t.running = s.running ∧ RecordKept s t ∧ t.out = s.out := by
  refine ⟨_, (Completes.jmp ha).exec_eq, toNat_jump_pc s _, ?_, ?_, rfl, rfl, ⟨rfl, rfl, rfl⟩, rfl⟩
  · exact regsKeptBut_of_regs_eq rfl []
  · exact cellsKeptBut_of_mem_eq rfl []

/-- Settles O40: the decoder on one operand byte, the effect, and the two OutOfRange errors. -/
theorem jmpGoesToTheRegister : Obligations.JmpGoesToTheRegister :=
  ⟨decode_oneOperand operandCount_jmp,
    fun _ s ha => exec_jmp_effect s ha,
    fun _ s ha => exec_raises_of_mem (i := .jmp _) List.mem_cons_self ha s,
    operandPastEndRaises (by rw [operandCount_jmp])⟩

end Machine

end Sys2Proof
end

section
/-! SUPPORT. The unknown opcode (60_exceptions.md R125): the fatal error of a fetched byte the opcode table lacks. -/

namespace Sys2Proof.Machine

/-- An opcode byte the table lacks is refused before any operand byte is looked at, so it does not matter how many of the
bytes after it lie in memory (R84). -/
theorem decode_fetchBytes_unknownOpcode {s : State} (hpc : s.pc.toNat < Config.memSize)
    (hop : ∀ m, readCell s.mem s.pc.toNat ≠ opcodeByte m) :
    decode (fetchBytes s) = .error (.unknownOpcode (readCell s.mem s.pc.toNat)) := by
  rw [fetchBytes_in s hpc]
  exact decode_unknownOpcode hop _

/-- Settles O18: the decoder refuses the byte at `pc` by name, and a failed decode is the fatal-error entry. -/
theorem unknownOpcodeIsFatal : Obligations.UnknownOpcodeIsFatal :=
  fun _ hr hpc hop => step_raises_of_decode_error hr (decode_fetchBytes_unknownOpcode hpc hop) rfl

end Sys2Proof.Machine
end

section
/-! SUPPORT. The round trip of the codec (30_encoding.md sections 1 to 3), both ways round, and which bytes are unknown
opcodes. -/

namespace Sys2Proof

/-! ### Decoding an encoding -/

/-- Each instruction by the decoder's law for its operand count. -/
theorem decode_encode_append (i : Instr) (rest : List Byte) : decode (encode i ++ rest) = .ok (i, rest) := by
  cases i with
  | ldi a imm => exact decode_twoOperands operandCount_ldi a imm rest
  | prn a => exact decode_oneOperand operandCount_prn a rest
  | hlt => exact decode_noOperand operandCount_hlt rest
  | mul a b => exact decode_twoOperands operandCount_mul a b rest
  | add a b => exact decode_twoOperands operandCount_add a b rest
  | push a => exact decode_oneOperand operandCount_push a rest
  | pop a => exact decode_oneOperand operandCount_pop a rest
  | call a => exact decode_oneOperand operandCount_call a rest
  | ret => exact decode_noOperand operandCount_ret rest
  | cmp a b => exact decode_twoOperands operandCount_cmp a b rest
  | jmp a => exact decode_oneOperand operandCount_jmp a rest
  | jeq a => exact decode_oneOperand operandCount_jeq a rest
  | jne a => exact decode_oneOperand operandCount_jne a rest

/-- Settles O10: the decoder's law for each operand count, instruction by instruction. -/
theorem decodeOfEncodeGivesTheInstruction : Obligations.DecodeOfEncodeGivesTheInstruction :=
  decode_encode_append

/-! ### Encoding what was decoded -/

/-- Once the opcode has matched, what the decoder takes and what it leaves make up the bytes it was given: one case per
operand count. -/
theorem encode_append_of_decode_opcodeByte {m : Opcode} {bytes rest : List Byte} {i : Instr}
    (h : decode (opcodeByte m :: bytes) = .ok (i, rest)) : opcodeByte m :: bytes = encode i ++ rest := by
  have hle := operandCount_opcodeByte_le m
  have hlen : operandCount (opcodeByte m) ≤ bytes.length := by
    by_contra hlt
    obtain ⟨e, he, -⟩ := decode_opcodeByte_of_length_lt (not_le.mp hlt)
    cases he.symm.trans h
  match hn : operandCount (opcodeByte m), bytes with
  | 0, bytes =>
    cases (decode_noOperand hn bytes).symm.trans h
    simp [encode_assemble, hn]
  | 1, a :: bytes =>
    cases (decode_oneOperand hn a bytes).symm.trans h
    simp [encode_assemble, hn]
  | 2, a :: b :: bytes =>
    cases (decode_twoOperands hn a b bytes).symm.trans h
    simp [encode_assemble, hn]
  | 1, [] | 2, [] | 2, [_] => simp [hn] at hlen
  | _ + 3, _ => omega

/-- A byte the decoder accepts as an opcode is a byte of the table. -/
theorem exists_opcodeByte_of_decode_ok {op : Byte} {bytes rest : List Byte} {i : Instr}
    (h : decode (op :: bytes) = .ok (i, rest)) : ∃ m, op = opcodeByte m := by
  by_contra hop
  rw [not_exists] at hop
  cases (decode_unknownOpcode hop bytes).symm.trans h

theorem encode_append_of_decode {bytes rest : List Byte} {i : Instr} (h : decode bytes = .ok (i, rest)) :
    bytes = encode i ++ rest := by
  cases bytes with
  | nil => cases h
  | cons op bytes =>
    obtain ⟨m, rfl⟩ := exists_opcodeByte_of_decode_ok h
    exact encode_append_of_decode_opcodeByte h

/-- Settles O11: the first byte is of the table, and its operand count decides which bytes were taken. -/
theorem decodedBytesAreTheEncoding : Obligations.DecodedBytesAreTheEncoding :=
  fun _ _ _ h => encode_append_of_decode h

/-! ### The unknown opcodes -/

/-- A byte is refused as unknown exactly when it is none of the table's. -/
theorem decode_eq_unknownOpcode_iff (op : Byte) (rest : List Byte) :
    decode (op :: rest) = .error (.unknownOpcode op) ↔ op ∉ allOpcodes.map opcodeByte := by
  constructor
  · intro h hmem
    obtain ⟨m, -, rfl⟩ := List.mem_map.mp hmem
    exact decode_opcodeByte_ne_unknownOpcode m rest _ h
  · intro h
    refine decode_unknownOpcode (fun m hm => h ?_) rest
    exact List.mem_map.mpr ⟨m, mem_allOpcodes m, hm.symm⟩

theorem matchOpcode_isSome_iff (op : Byte) : (matchOpcode op).isSome = true ↔ ∃ m, opcodeByte m = op := by
  rw [Option.isSome_iff_exists]
  constructor
  · rintro ⟨m, h⟩
    exact ⟨m, opcodeByte_of_matchOpcode h⟩
  · rintro ⟨m, rfl⟩
    exact ⟨m, matchOpcode_opcodeByte m⟩

/-- The bytes the opcode match finds are the table's, each once. -/
theorem knownBytes_perm :
    ((List.range 256).filter fun n => (matchOpcode (BitVec.ofNat 8 n)).isSome).Perm
      (allOpcodes.map fun m => (opcodeByte m).toNat) := by
  refine (List.perm_ext_iff_of_nodup (List.nodup_range.filter _) (by decide)).mpr fun n => ?_
  simp only [List.mem_filter, List.mem_range, List.mem_map, matchOpcode_isSome_iff]
  constructor
  · rintro ⟨hn, m, hm⟩
    exact ⟨m, mem_allOpcodes m, by rw [hm, BitVec.toNat_ofNat, Nat.mod_eq_of_lt hn]⟩
  · rintro ⟨m, -, rfl⟩
    exact ⟨(opcodeByte m).isLt, m, by simp⟩

/-- Of the 256 bytes the opcode match finds thirteen and misses the rest. -/
theorem length_unknownBytes :
    ((List.range 256).filter fun n => (matchOpcode (BitVec.ofNat 8 n)).isNone).length = 243 := by
  have hknown := knownBytes_perm.length_eq
  have htable : allOpcodes.length = 13 := rfl
  have hsum := List.length_eq_countP_add_countP (l := List.range 256)
    (fun n => (matchOpcode (BitVec.ofNat 8 n)).isSome)
  simp only [List.countP_eq_length_filter, decide_not, Bool.decide_eq_true, Option.not_isSome, List.length_range,
    hknown, List.length_map, htable] at hsum
  omega

/-- Settles O14: the bytes listed are the table's, and the table has thirteen different bytes. -/
theorem unknownOpcodesAreTheOtherBytes : Obligations.UnknownOpcodesAreTheOtherBytes :=
  ⟨decode_eq_unknownOpcode_iff, length_unknownBytes⟩

/-- Settles O15: each word is the encoding of its instruction, so the round trip decodes it. -/
theorem specWordsDecode : Obligations.SpecWordsDecode :=
  ⟨decode_encode_append (.ldi 0 65) [], decode_encode_append (.prn 0) [], decode_encode_append .hlt [],
    decode_encode_append (.mul 0 1) [], decode_encode_append (.cmp 4 7) [], decode_encode_append (.push 7) [],
    decode_encode_append (.call 1) [], decode_encode_append .ret [], decode_encode_append (.jne 3) []⟩

end Sys2Proof
end

section
/-! SUPPORT. What an instruction that completes leaves unchanged, one lemma per component of the state (R26, R28, R36,
R93; the table of R16), and the same of `exec`. -/

namespace Sys2Proof.Machine

@[simp] theorem branch_mem (m : Opcode) (c : Bool) (r : RegIndex) (s : State) : (branch m c r s).mem = s.mem := by
  cases c <;> rfl

@[simp] theorem branch_running (m : Opcode) (c : Bool) (r : RegIndex) (s : State) :
    (branch m c r s).running = s.running := by
  cases c <;> rfl

@[simp] theorem branch_errPc (m : Opcode) (c : Bool) (r : RegIndex) (s : State) :
    (branch m c r s).errPc = s.errPc := by
  cases c <;> rfl

@[simp] theorem branch_errOpcode (m : Opcode) (c : Bool) (r : RegIndex) (s : State) :
    (branch m c r s).errOpcode = s.errOpcode := by
  cases c <;> rfl

@[simp] theorem branch_out (m : Opcode) (c : Bool) (r : RegIndex) (s : State) : (branch m c r s).out = s.out := by
  cases c <;> rfl

@[simp] theorem reg_branch (m : Opcode) (c : Bool) (r q : RegIndex) (s : State) :
    (branch m c r s).reg q = s.reg q := by
  cases c <;> rfl

/-! ### What completion keeps -/

theorem Completes.recordKept {i : Instr} {s t : State} (h : Completes i s t) : RecordKept s t :=
  ⟨h.errKind, by cases h <;> simp, by cases h <;> simp⟩

/-- Only HLT stops the machine. -/
theorem Completes.running_of_ne_hlt {i : Instr} {s t : State} (h : Completes i s t) (hi : i ≠ .hlt) :
    t.running = s.running := by
  cases h with
  | hlt => exact absurd rfl hi
  | _ => simp

/-- The destination register is the one `writesReg` names. -/
theorem ne_of_beq_val_eq_false {a : Byte} {r : RegIndex} (ha : a.toNat < Config.numRegs)
    (h : (a.toNat == r.val) = false) : r ≠ ⟨a.toNat, ha⟩ := by
  rintro rfl
  simp at h

theorem Completes.reg_of_not_writesReg {i : Instr} {s t : State} (h : Completes i s t) {r : RegIndex}
    (hr : writesReg i r = false) : t.reg r = s.reg r := by
  cases h with
  | ldi imm ha => exact reg_setReg_other s _ (ne_of_beq_val_eq_false ha hr)
  | mul ha hb => exact reg_setReg_other s _ (ne_of_beq_val_eq_false ha hr)
  | add ha hb => exact reg_setReg_other s _ (ne_of_beq_val_eq_false ha hr)
  | push ha => exact reg_setReg_other s _ (ne_of_beq_false hr)
  | pop ha =>
    obtain ⟨hne, hsp⟩ := Bool.or_eq_false_iff.mp hr
    rw [reg_advance, reg_incSp, if_neg (ne_of_beq_false hsp), reg_setReg_other s _ (ne_of_beq_val_eq_false ha hne)]
  | call ha => exact reg_setReg_other s _ (ne_of_beq_false hr)
  | ret => exact reg_setReg_other s _ (ne_of_beq_false hr)
  | prn | hlt | cmp | jmp | jeq | jne => simp

theorem Completes.mem_of_not_storesByte {i : Instr} {s t : State} (h : Completes i s t)
    (hi : storesByte i = false) : t.mem = s.mem := by
  cases h with
  | push | call => cases hi
  | _ => simp

/-- PUSH and CALL write one byte below the stack pointer (R109). -/
theorem Completes.exists_mem_eq_writeCell {i : Instr} {s t : State} (h : Completes i s t)
    (hi : storesByte i = true) : ∃ v, t.mem = writeCell s.mem (s.sp - 1).toNat v := by
  cases h with
  | push ha => exact ⟨_, rfl⟩
  | call ha => exact ⟨_, rfl⟩
  | _ => cases hi

theorem Completes.cellsKeptBut {i : Instr} {s t : State} (h : Completes i s t) :
    CellsKeptBut (if storesByte i then [s.decSp.sp.toNat] else []) s t := by
  cases hi : storesByte i with
  | false => exact cellsKeptBut_of_mem_eq (h.mem_of_not_storesByte hi) _
  | true =>
    obtain ⟨v, hm⟩ := h.exists_mem_eq_writeCell hi
    intro a ha
    have hne : a ≠ (s.sp - 1).toNat := by simpa using ha
    rw [hm, readCell_writeCell_other s.mem v hne]

/-- Only PRN emits (R93), and it emits its register. -/
theorem Completes.out_cases {i : Instr} {s t : State} (h : Completes i s t) :
    t.out = s.out ∨
    ∃ (a : Byte) (ha : a.toNat < Config.numRegs), i = .prn a ∧ t.out = s.out ++ [s.reg ⟨a.toNat, ha⟩] := by
  cases h with
  | prn ha => exact .inr ⟨_, ha, rfl, by simp⟩
  | _ => exact .inl (by simp)

/-! ### The statements about `exec` -/

/-- Settles O20: an ill-formed instruction is the fatal-error entry. -/
theorem badRegisterIndexIsOutOfRange : Obligations.BadRegisterIndexIsOutOfRange := by
  intro i s hw
  rw [exec_illFormed hw]
  exact raises_raise .outOfRange _ s

/-- Settles O21: a well-formed instruction completes, which keeps the record and, but for HLT, the running flag. -/
theorem wellFormedInstructionCompletes : Obligations.WellFormedInstructionCompletes := by
  intro i s hw
  obtain ⟨t, ht⟩ := exists_completes hw s
  exact ⟨t, ht.exec_eq, ht.recordKept, ht.running_of_ne_hlt⟩

/-- Settles O45: both ends of `exec`; the fatal-error entry writes no register. -/
theorem onlyTheNamedRegistersAreWritten : Obligations.OnlyTheNamedRegistersAreWritten := by
  intro i s t h r hr
  obtain ⟨-, hc⟩ | ⟨-, rfl⟩ := exec_cases h
  · exact hc.reg_of_not_writesReg hr
  · exact reg_raise s _ _ r

/-- Settles O46: both ends of `exec`; the fatal-error entry writes no cell. -/
theorem onlyPushAndCallStore : Obligations.OnlyPushAndCallStore := by
  intro i s t h
  obtain ⟨-, hc⟩ | ⟨-, rfl⟩ := exec_cases h
  · exact hc.cellsKeptBut
  · exact cellsKeptBut_of_mem_eq (raise_mem s _ _) _

end Sys2Proof.Machine
end

section
/-! SUPPORT. The invariant along a step (10_state.md R22, R28; 60_exceptions.md R124 to R126, R131): canonical memory, the
bound on `pc`, the error record. -/

namespace Sys2Proof

/-! ### Why a decode fails -/

/-- The decoder fails for want of an opcode byte, on a byte the table lacks, or for want of an operand byte. -/
theorem decode_error_cases {bytes : List Byte} {e : DecodeError} (h : decode bytes = .error e) :
    (bytes = [] ∧ e = .noOpcode) ∨
    (∃ op rest, bytes = op :: rest ∧ matchOpcode op = none ∧ e = .unknownOpcode op) ∨
    (∃ m rest, bytes = opcodeByte m :: rest ∧
      (e = .missingOperandA (opcodeByte m) ∨ e = .missingOperandB (opcodeByte m))) := by
  cases bytes with
  | nil =>
    cases h
    exact .inl ⟨rfl, rfl⟩
  | cons op rest =>
    by_cases hop : ∃ m, op = opcodeByte m
    · obtain ⟨m, rfl⟩ := hop
      refine .inr (.inr ⟨m, rest, rfl, ?_⟩)
      obtain ⟨a, b, rest', hd⟩ | hd | hd := decode_opcodeByte_cases m rest
      · cases hd.symm.trans h
      · cases hd.symm.trans h
        exact .inl rfl
      · cases hd.symm.trans h
        exact .inr rfl
    · rw [not_exists] at hop
      cases (decode_unknownOpcode hop rest).symm.trans h
      exact .inr (.inl ⟨op, rest, rfl, (matchOpcode_eq_none_iff op).mpr hop, rfl⟩)

namespace Machine

/-! ### From the fetch back to the bytes -/

theorem decode_of_fetchInstr_ok {s : State} {i : Instr} (h : fetchInstr s = .ok i) :
    ∃ rest, decode (fetchBytes s) = .ok (i, rest) := by
  cases hd : decode (fetchBytes s) with
  | ok p =>
    cases (fetchInstr_of_decode_ok hd).symm.trans h
    exact ⟨p.2, rfl⟩
  | error e => cases (fetchInstr_of_decode_error hd).symm.trans h

theorem decode_of_fetchInstr_error {s : State} {e : DecodeError} (h : fetchInstr s = .error e) :
    decode (fetchBytes s) = .error e := by
  cases hd : decode (fetchBytes s) with
  | ok p => cases (fetchInstr_of_decode_ok hd).symm.trans h
  | error e' =>
    cases (fetchInstr_of_decode_error hd).symm.trans h
    rfl

theorem length_fetchBytes (s : State) :
    (fetchBytes s).length = min Config.maxLength (Config.memSize - s.pc.toNat) :=
  length_bytesFrom s _ _

/-- The fetch reads a first byte exactly when `pc` is an address of memory. -/
theorem pc_lt_memSize_iff (s : State) : s.pc.toNat < Config.memSize ↔ fetchBytes s ≠ [] := by
  have hmax : Config.maxLength = 3 := rfl
  rw [← List.length_pos_iff, length_fetchBytes]
  omega

/-- An instruction that was fetched lies in memory as a whole. -/
theorem pc_add_length_le_of_fetchInstr {s : State} {i : Instr} (h : fetchInstr s = .ok i) :
    s.pc.toNat + (encode i).length ≤ Config.memSize := by
  obtain ⟨rest, hd⟩ := decode_of_fetchInstr_ok h
  have hlen := congrArg List.length (encode_append_of_decode hd)
  have hpos := length_encode i
  rw [length_fetchBytes, List.length_append] at hlen
  omega

/-! ### The bound on `pc` -/

/-- `pc` advances or takes a byte (R88, R114). -/
theorem Completes.pc_cases {i : Instr} {s t : State} (h : Completes i s t) :
    t.pc = s.nextPc (opcodeOf i) ∨ ∃ v : Byte, t.pc = zextPc v := by
  cases h with
  | call | ret | jmp => exact .inr ⟨_, rfl⟩
  | jeq ha =>
    cases s.fl.isEqual
    · exact .inl rfl
    · exact .inr ⟨_, rfl⟩
  | jne ha =>
    cases s.fl.isEqual
    · exact .inr ⟨_, rfl⟩
    · exact .inl rfl
  | ldi | prn | hlt | mul | add | push | pop | cmp => exact .inl rfl

/-- Inside memory the advance does not wrap. -/
theorem toNat_nextPc_of_fetchInstr {s : State} {i : Instr} (h : fetchInstr s = .ok i) :
    (s.nextPc (opcodeOf i)).toNat = s.pc.toNat + (encode i).length := by
  have hle := pc_add_length_le_of_fetchInstr h
  have hsize : Config.memSize = 256 := rfl
  rw [nextPc_opcodeOf, BitVec.toNat_add, BitVec.toNat_ofNat]
  omega

theorem Completes.pc_le {i : Instr} {s t : State} (h : Completes i s t) (hf : fetchInstr s = .ok i) :
    t.pc.toNat ≤ Config.memSize := by
  obtain hpc | ⟨v, hpc⟩ := h.pc_cases
  · rw [hpc, toNat_nextPc_of_fetchInstr hf]
    exact pc_add_length_le_of_fetchInstr hf
  · rw [hpc, toNat_zextPc]
    exact (byte_lt_memSize v).le

/-! ### Canonical memory -/

theorem Completes.mem_wf {i : Instr} {s t : State} (h : Completes i s t) (hs : s.mem.wf = true) :
    t.mem.wf = true := by
  cases hi : storesByte i with
  | false => rw [h.mem_of_not_storesByte hi, hs]
  | true =>
    obtain ⟨v, hm⟩ := h.exists_mem_eq_writeCell hi
    rw [hm]
    exact writeCell_wf hs (byte_lt_memSize _) v

/-! ### The error record -/

/-- Without an error the record is coherent when it is cleared. -/
theorem recordCoherent_of_none {s : State} (h : s.errKind = .none) :
    s.recordCoherent = true ↔ s.errPc = 0 ∧ s.errOpcode = 0 := by
  simp only [State.recordCoherent, h, decide_eq_true_eq]

/-- OutOfRange fits any byte of the table, and past the end of memory the byte 0x00 that stands for none read (R124). -/
theorem recordCoherent_raise_outOfRange {s : State} {op : Byte}
    (h : (matchOpcode op).isSome = true ∨ (op = 0 ∧ s.pc.toNat = Config.memSize)) :
    (raise .outOfRange op s).recordCoherent = true :=
  decide_eq_true ⟨rfl, rfl, h⟩

/-- UnknownOpcode fits a byte the table lacks, read inside memory (R125). -/
theorem recordCoherent_raise_unknownOpcode {s : State} {op : Byte} (hpc : s.pc.toNat < Config.memSize)
    (h : matchOpcode op = none) : (raise .unknownOpcode op s).recordCoherent = true :=
  decide_eq_true ⟨rfl, rfl, hpc, h⟩

theorem recordCoherent_raise_opcodeByte (m : Opcode) (s : State) :
    (raise .outOfRange (opcodeByte m) s).recordCoherent = true :=
  recordCoherent_raise_outOfRange (.inl (by rw [matchOpcode_opcodeByte, Option.isSome_some]))

theorem recordCoherent_fetchRaise {s : State} {e : DecodeError} (hpc : s.pc.toNat ≤ Config.memSize)
    (h : fetchInstr s = .error e) : (fetchRaise e s).recordCoherent = true := by
  have hin := pc_lt_memSize_iff s
  obtain ⟨hb, rfl⟩ | ⟨op, rest, hb, hop, rfl⟩ | ⟨m, rest, hb, rfl | rfl⟩ :=
    decode_error_cases (decode_of_fetchInstr_error h)
  · refine recordCoherent_raise_outOfRange (.inr ⟨rfl, ?_⟩)
    exact hpc.antisymm (not_lt.mp fun hlt => hin.mp hlt hb)
  · exact recordCoherent_raise_unknownOpcode (hin.mpr (by simp [hb])) hop
  · exact recordCoherent_raise_opcodeByte m s
  · exact recordCoherent_raise_opcodeByte m s

/-- A coherent record that holds an error is that of a HALTED machine. -/
theorem running_of_recordCoherent_of_faulted {s : State} (h : s.recordCoherent = true) (hf : s.Faulted) :
    s.running = false := by
  cases hk : s.errKind <;> simp only [State.recordCoherent, hk, decide_eq_true_eq, Bool.false_eq_true] at h
  case none => exact absurd hk hf
  case outOfRange => exact h.1
  case unknownOpcode => exact h.1

/-- A running machine has no error latched, and completion keeps the cleared record. -/
theorem Completes.recordCoherent {i : Instr} {s t : State} (h : Completes i s t) (hr : s.running = true)
    (hs : s.recordCoherent = true) : t.recordCoherent = true := by
  have hnone : s.errKind = .none := by
    by_contra hf
    simp [running_of_recordCoherent_of_faulted hs hf] at hr
  obtain ⟨hkind, hpc, hop⟩ := h.recordKept
  rw [recordCoherent_of_none (hkind.trans hnone), hpc, hop]
  exact (recordCoherent_of_none hnone).mp hs

/-! ### The invariant -/

/-- The fatal-error entry keeps the invariant when the record it writes is coherent. -/
theorem raise_inv {s : State} {k : ErrKind} {op : Byte} (hs : s.Inv) (h : (raise k op s).recordCoherent = true) :
    (raise k op s).Inv := by
  obtain ⟨hmem, hpc, -⟩ := hs
  exact ⟨hmem, hpc, h⟩

theorem Completes.inv {i : Instr} {s t : State} (h : Completes i s t) (hr : s.running = true)
    (hf : fetchInstr s = .ok i) (hs : s.Inv) : t.Inv := by
  obtain ⟨hmem, -, hrec⟩ := hs
  exact ⟨h.mem_wf hmem, h.pc_le hf, h.recordCoherent hr hrec⟩

/-- Settles O3: the cases of a step are no change, a fetch that failed, an ill-formed instruction and a completed one. -/
theorem stepKeepsTheInvariant : Obligations.StepKeepsTheInvariant := by
  intro s t hs h
  have ⟨_, hpc, _⟩ := hs
  obtain ⟨-, rfl⟩ | ⟨e, -, hf, rfl⟩ | ⟨i, hr, hf, he⟩ := step_cases h
  · exact hs
  · exact raise_inv hs (recordCoherent_fetchRaise hpc hf)
  · obtain ⟨-, hc⟩ | ⟨-, rfl⟩ := exec_cases he
    · exact hc.inv hr hf hs
    · exact raise_inv hs (recordCoherent_raise_opcodeByte (opcodeOf i) s)

end Machine

end Sys2Proof
end

section
/-! SUPPORT. The host's operations (40_core_cycle_and_blocks.md R81, R82; 70_reset_and_hazards.md R142): what each does when
it is accepted and when it is refused, the invariant under them, and the reachable states. -/

namespace Sys2Proof.Machine

/-! ### reset() -/

/-- Every register is zero after reset but the stack pointer. -/
theorem reg_hostReset (s : State) (r : RegIndex) :
    (hostReset s).reg r = if r = spIndex then Config.spInit else 0 := by
  have hreset : ∀ q : RegIndex, State.reset.reg q = if q = spIndex then Config.spInit else 0 := by decide
  exact (reg_congr rfl r).trans (hreset r)

/-- Settles O1: the register file by `reg_hostReset`, every other component by definition. -/
theorem resetLeavesTheStatedValues : Obligations.ResetLeavesTheStatedValues := by
  intro s
  refine ⟨fun _ => rfl, fun r hr => ?_, ?_, rfl, rfl, rfl, rfl, rfl, rfl, rfl, fun hout => ?_⟩
  · rw [reg_hostReset, if_neg hr]
  · exact reg_hostReset s spIndex
  · rw [hostReset, hout]
    rfl

/-- Settles O2: the reset state is one closed value. -/
theorem resetMeetsTheInvariant : Obligations.ResetMeetsTheInvariant :=
  ⟨rfl, Nat.zero_le _, rfl⟩

theorem hostReset_inv (s : State) : (hostReset s).Inv := resetMeetsTheInvariant

/-! ### run() -/

theorem hostRun_accepted {s : State} (hr : s.running = false) (hk : s.errKind = .none) :
    hostRun s = { s with running := true } := by
  simp [hostRun, hr, hk]

theorem hostRun_refused {s : State} (h : s.running = true ∨ s.Faulted) : hostRun s = s := by
  obtain hr | hk := h
  · simp [hostRun, hr]
  · simp [hostRun, hk]

/-- Settles O7: run() accepted and run() refused. -/
theorem runSetsOnlyTheRunningFlag : Obligations.RunSetsOnlyTheRunningFlag :=
  fun _ => ⟨hostRun_accepted, hostRun_refused⟩

theorem hostRun_inv {s : State} (hs : s.Inv) : (hostRun s).Inv := by
  by_cases h : s.running = true ∨ s.Faulted
  · rwa [hostRun_refused h]
  · obtain ⟨hr, hk⟩ := not_or.mp h
    have hnone : s.errKind = .none := not_not.mp hk
    obtain ⟨hmem, hpc, hrec⟩ := hs
    rw [hostRun_accepted (eq_false_of_ne_true hr) hnone]
    exact ⟨hmem, hpc, (recordCoherent_of_none (s := { s with running := true }) hnone).mpr
      ((recordCoherent_of_none hnone).mp hrec)⟩

/-! ### load() and the load port -/

theorem loadAccepts_iff (words : List Nat) (s : State) : loadAccepts words s = true ↔
    s.running = false ∧ words.length ≤ Config.memSize ∧ ∀ w ∈ words, w < 256 := by
  simp [loadAccepts, and_assoc]

theorem hostLoad_accepted {words : List Nat} {s : State} (h : loadAccepts words s = true) :
    hostLoad words s = { s with mem := storeFrom s.mem 0 (words.map (BitVec.ofNat 8)) } := by
  simp [hostLoad, h]

theorem hostLoad_refused {words : List Nat} {s : State} (h : ¬ loadAccepts words s = true) : hostLoad words s = s := by
  simp [hostLoad, h]

/-- Only memory can change under load(). -/
theorem hostLoad_cases (words : List Nat) (s : State) :
    hostLoad words s = s ∨ hostLoad words s = { s with mem := storeFrom s.mem 0 (words.map (BitVec.ofNat 8)) } := by
  by_cases h : loadAccepts words s = true
  · exact .inr (hostLoad_accepted h)
  · exact .inl (hostLoad_refused h)

/-- A change of memory alone keeps the invariant when the memory stays canonical. -/
theorem inv_of_mem_wf {s : State} (hs : s.Inv) {m : Memory} (hm : m.wf = true) : ({ s with mem := m } : State).Inv := by
  obtain ⟨-, hpc, hrec⟩ := hs
  exact ⟨hm, hpc, hrec⟩

theorem hostLoad_inv {s : State} (hs : s.Inv) (words : List Nat) : (hostLoad words s).Inv := by
  obtain h | h := hostLoad_cases words s
  · rwa [h]
  · rw [h]
    exact inv_of_mem_wf hs (storeFrom_wf hs.1 0 _)

theorem hostLoadWord_inv {s : State} (hs : s.Inv) (addr data : Byte) : (hostLoadWord addr data s).Inv := by
  unfold hostLoadWord
  split
  · exact hs
  · exact inv_of_mem_wf hs (writeCell_wf hs.1 (byte_lt_memSize addr) data)

/-- Settles O4: one lemma per operation. -/
theorem hostOperationsKeepTheInvariant : Obligations.HostOperationsKeepTheInvariant :=
  fun s hs => ⟨hostReset_inv s, hostRun_inv hs, hostLoad_inv hs, hostLoadWord_inv hs⟩

/-- The words a load refuses: too many, or one that is no byte; or a machine that is running. -/
theorem not_loadAccepts {words : List Nat} {s : State}
    (h : s.running = true ∨ 256 < words.length ∨ ∃ w ∈ words, 256 ≤ w) : ¬ loadAccepts words s = true := by
  rw [loadAccepts_iff]
  rintro ⟨hr, hlen, hw⟩
  obtain h | h | ⟨w, hmem, hge⟩ := h
  · simp [hr] at h
  · exact absurd hlen (not_le.mpr h)
  · exact absurd (hw w hmem) (not_lt.mpr hge)

/-- Settles O6: accepted, the load stores a sequence of bytes from 0 on; refused, it is the identity. -/
theorem loadFillsMemoryFromZero : Obligations.LoadFillsMemoryFromZero := by
  refine ⟨fun words s hwf hr hlen hw => ?_, fun words s h => hostLoad_refused (not_loadAccepts h)⟩
  rw [hostLoad_accepted ((loadAccepts_iff words s).mpr ⟨hr, hlen, hw⟩)]
  refine ⟨fun k hk => ?_, fun a ha => ?_, rfl, rfl, rfl, rfl, ⟨rfl, rfl, rfl⟩, rfl⟩
  · have hin := readCell_storeFrom_inside hwf 0 k (words.map (BitVec.ofNat 8)) (by simpa using hk)
      (by simpa using hk.trans_le hlen)
    simpa using hin
  · exact readCell_storeFrom_outside s.mem 0 a _ (.inr (by simpa using ha))

/-! ### The reachable states -/

theorem inv_of_reachable {s : State} (h : Reachable s) : s.Inv := by
  induction h with
  | constructed => exact resetMeetsTheInvariant
  | stepped _ hstep ih => exact stepKeepsTheInvariant _ _ ih hstep
  | resetByHost _ _ => exact hostReset_inv _
  | loaded words _ ih => exact hostLoad_inv ih words
  | loadedWord addr data _ ih => exact hostLoadWord_inv ih addr data
  | started _ ih => exact hostRun_inv ih

theorem errKind_ne_unsupported_of_recordCoherent {s : State} (h : s.recordCoherent = true) :
    s.errKind ≠ .unsupportedOperation := by
  intro hk
  simp [State.recordCoherent, hk] at h

/-- Settles O5: the invariant holds of every reachable state, and its error record gives the rest. -/
theorem reachableStatesMeetTheInvariant : Obligations.ReachableStatesMeetTheInvariant := by
  intro s h
  have hs := inv_of_reachable h
  have ⟨_, _, hrec⟩ := hs
  exact ⟨hs, errKind_ne_unsupported_of_recordCoherent hrec, running_of_recordCoherent_of_faulted hrec⟩

end Sys2Proof.Machine
end

section
/-! SUPPORT. One step and runs of any length (40_core_cycle_and_blocks.md R89 to R92; 60_exceptions.md R130 to R134). -/

namespace Sys2Proof.Machine

/-! ### What a step can end in -/

/-- Settles O16: the fetch answers what the decoder does. -/
theorem stepRunsTheDecodedInstruction : Obligations.StepRunsTheDecodedInstruction :=
  fun _ _ _ hr h => step_fetched hr (fetchInstr_of_decode_ok h)

theorem exists_exec_eq_next (i : Instr) (s : State) : ∃ t, exec i s = .next t := by
  cases hw : i.wellFormed with
  | true =>
    obtain ⟨t, ht⟩ := exists_completes hw s
    exact ⟨t, ht.exec_eq⟩
  | false => exact ⟨_, exec_illFormed hw s⟩

/-- Settles O23: a HALTED machine idles, a failed fetch raises, an instruction completes or raises. -/
theorem stepAlwaysAnswersANextState : Obligations.StepAlwaysAnswersANextState := by
  intro s
  cases hr : s.running with
  | false => exact ⟨s, step_halted hr⟩
  | true =>
    cases hf : fetchInstr s with
    | ok i =>
      rw [step_fetched hr hf]
      exact exists_exec_eq_next i s
    | error e => exact ⟨_, step_fetchFailed hr hf⟩

theorem fetchFault_kind (e : DecodeError) :
    (fetchFault e).1 = .outOfRange ∨ (fetchFault e).1 = .unknownOpcode := by
  cases e with
  | unknownOpcode op => exact .inr rfl
  | noOpcode | missingOperandA op | missingOperandB op => exact .inl rfl

/-- A step leaves a HALTED machine as it is, takes the fatal-error entry with one of two kinds, or completes the instruction
fetched. -/
theorem step_outcomes {s t : State} (h : step s = .next t) :
    (s.running = false ∧ t = s) ∨
    (s.running = true ∧ ∃ k op, (k = .outOfRange ∨ k = .unknownOpcode) ∧ t = raise k op s) ∨
    (s.running = true ∧ ∃ i, fetchInstr s = .ok i ∧ Completes i s t) := by
  obtain ⟨hr, rfl⟩ | ⟨e, hr, -, rfl⟩ | ⟨i, hr, hf, he⟩ := step_cases h
  · exact .inl ⟨hr, rfl⟩
  · exact .inr (.inl ⟨hr, _, _, fetchFault_kind e, rfl⟩)
  · obtain ⟨-, hc⟩ | ⟨-, rfl⟩ := exec_cases he
    · exact .inr (.inr ⟨hr, i, hf, hc⟩)
    · exact .inr (.inl ⟨hr, _, _, .inl rfl, rfl⟩)

/-- Settles O22: no change and completion latch nothing, so the step was the fatal-error entry. -/
theorem errorsArePrecise : Obligations.ErrorsArePrecise := by
  intro s t hs h ht
  obtain ⟨-, rfl⟩ | ⟨-, k, op, hk, rfl⟩ | ⟨-, i, -, hc⟩ := step_outcomes h
  · exact absurd hs ht
  · exact ⟨rfl, rfl, rfl, rfl, rfl, rfl, rfl, hk⟩
  · exact absurd (hc.errKind.trans hs) ht

/-- Settles O24: the fatal-error entry is the second end, and of the instructions only HLT clears the running flag. -/
theorem runEndsByHltOrError : Obligations.RunEndsByHltOrError := by
  intro s t hr hs h ht
  obtain ⟨hr', -⟩ | ⟨-, k, op, hk, rfl⟩ | ⟨-, i, hf, hc⟩ := step_outcomes h
  · simp [hr] at hr'
  · refine .inr ⟨?_, rfl, rfl⟩
    obtain rfl | rfl := hk <;> simp
  · have hi : i = .hlt := by
      by_contra hne
      simp [hc.running_of_ne_hlt hne, hr] at ht
    exact .inl ⟨⟨ht, hc.errKind.trans hs⟩, hi ▸ hf⟩

/-! ### Runs -/

theorem run_succ {s t : State} (h : step s = .next t) (k : Nat) :
    Host.Core.run core (k + 1) s = Host.Core.run core k t := by
  have hstep : core.step s = .next t := h
  simp only [Host.Core.run, hstep]

/-- A state that steps to itself is all a run from it can answer. -/
theorem run_of_step_self {s : State} (h : step s = .next s) (k : Nat) : Host.Core.run core k s = .next s := by
  induction k with
  | zero => rfl
  | succ k ih => rw [run_succ h, ih]

theorem run_halted {s : State} (h : s.running = false) (k : Nat) : Host.Core.run core k s = .next s :=
  run_of_step_self (step_halted h) k

/-- A run may be taken in two parts. -/
theorem run_add {k : Nat} {s t : State} (h : Host.Core.run core k s = .next t) (j : Nat) :
    Host.Core.run core (k + j) s = Host.Core.run core j t := by
  induction k generalizing s with
  | zero =>
    cases h
    rw [Nat.zero_add]
  | succ k ih =>
    obtain ⟨u, hu⟩ := stepAlwaysAnswersANextState s
    rw [run_succ hu] at h
    rw [Nat.succ_add_eq_add_succ, Nat.add_succ, run_succ hu, ih h]

/-- Settles O8: a HALTED machine steps to itself. -/
theorem haltedMachineChangesNothing : Obligations.HaltedMachineChangesNothing :=
  fun k _ h => run_halted h k

/-- Settles O9: no step and no run() changes a HALTED machine with an error; load() changes memory at most. -/
theorem latchedErrorIsLeftOnlyByReset : Obligations.LatchedErrorIsLeftOnlyByReset := by
  intro s hr hs
  refine ⟨run_halted hr, hostRun_refused (.inr hs), fun words => ?_, rfl⟩
  obtain h | h := hostLoad_cases words s <;> rw [h] <;> exact ⟨⟨rfl, rfl, rfl⟩, hr⟩

/-- Settles O25: the run in two parts, of which the second starts HALTED. -/
theorem moreFuelGivesTheSameEnd : Obligations.MoreFuelGivesTheSameEnd :=
  fun _ j _ _ h ht => (run_add h j).trans (run_halted ht j)

end Sys2Proof.Machine
end

section
/-! SUPPORT. HLT and CMP, the arithmetic laws of ADD and MUL, and the conditional branches (41_data_output_halt.md R99;
42_alu.md R104, R105, R107; 44_control_transfer.md R118, R119, R121). -/

namespace Sys2Proof.Machine

/-! ### HLT -/

/-- The execute rule of HLT (R99) with its frame. -/
theorem exec_hlt_effect (s : State) :
    ∃ t, exec .hlt s = .next t ∧ t.running = false ∧ t.pc = s.pc + 1 ∧ RegsKeptBut [] s t ∧
      CellsKeptBut [] s t ∧ t.fl = s.fl ∧ RecordKept s t ∧ t.out = s.out := by
  refine ⟨_, Completes.hlt.exec_eq, rfl, nextPc_hlt s, ?_, ?_, rfl, ⟨rfl, rfl, rfl⟩, rfl⟩
  · exact regsKeptBut_of_regs_eq rfl []
  · exact cellsKeptBut_of_mem_eq rfl []

/-- HLT has no operand byte, so it is fetched wherever its byte lies, address 255 included. -/
theorem fetchInstr_hlt {s : State} (hpc : s.pc.toNat < Config.memSize)
    (hop : readCell s.mem s.pc.toNat = opcodeByte .hlt) : fetchInstr s = .ok .hlt := by
  refine fetchInstr_of_decode_ok (rest := bytesFrom s 2 (s.pc.toNat + 1)) ?_
  rw [fetchBytes_of_opcode hpc hop]
  exact decode_noOperand operandCount_hlt _

theorem step_hlt_ends {s : State} (hr : s.running = true) (hs : s.errKind = .none) (hpc : s.pc.toNat < Config.memSize)
    (hop : readCell s.mem s.pc.toNat = opcodeByte .hlt) :
    ∃ t, step s = .next t ∧ t.EndedNormally ∧ t.pc.toNat = s.pc.toNat + 1 ∧ ∀ k, Host.Core.run core k t = .next t := by
  have hf := fetchInstr_hlt hpc hop
  have hnext := toNat_nextPc_of_fetchInstr hf
  have hlen : (encode .hlt).length = 1 := rfl
  rw [hlen] at hnext
  refine ⟨_, (step_fetched hr hf).trans Completes.hlt.exec_eq, ⟨rfl, hs⟩, hnext, run_halted rfl⟩

/-- Settles O28: the decoder on no operand byte, the effect, and the step that ends a run. -/
theorem hltEndsTheRun : Obligations.HltEndsTheRun :=
  ⟨decode_noOperand operandCount_hlt, exec_hlt_effect,
    fun _ hr hs hpc hop => step_hlt_ends hr hs hpc hop⟩

/-! ### CMP -/

/-- The execute rule of CMP (R104) with its frame. -/
theorem exec_cmp_effect {a b : Byte} (s : State) (ha : a.toNat < Config.numRegs) (hb : b.toNat < Config.numRegs) :
    ∃ t, exec (.cmp a b) s = .next t ∧
      (t.fl = .equal ↔ s.reg ⟨a.toNat, ha⟩ = s.reg ⟨b.toNat, hb⟩) ∧
      (t.fl = .greater ↔ (s.reg ⟨b.toNat, hb⟩).toNat < (s.reg ⟨a.toNat, ha⟩).toNat) ∧
      (t.fl = .less ↔ (s.reg ⟨a.toNat, ha⟩).toNat < (s.reg ⟨b.toNat, hb⟩).toNat) ∧ t.fl ≠ .none ∧
      RegsKeptBut [] s t ∧ t.pc = s.pc + 3 ∧
      CellsKeptBut [] s t ∧ t.running = s.running ∧ RecordKept s t ∧ t.out = s.out :=
  ⟨_, (Completes.cmp ha hb).exec_eq, compareFlag_equal_iff _ _, compareFlag_greater_iff _ _, compareFlag_less_iff _ _,
    compareFlag_ne_none _ _, regsKeptBut_of_regs_eq rfl [], nextPc_cmp s, cellsKeptBut_of_mem_eq rfl [], rfl,
    ⟨rfl, rfl, rfl⟩, rfl⟩

/-- Settles O31: the decoder on two operand bytes, the comparison with its frame, and the two OutOfRange errors. -/
theorem cmpSetsTheFlags : Obligations.CmpSetsTheFlags :=
  ⟨decode_twoOperands operandCount_cmp,
    fun _ _ s ha hb => exec_cmp_effect s ha hb,
    fun a b s h => exec_raises_of_twoOperands (i := .cmp a b) rfl h s,
    operandPastEndRaises (by rw [operandCount_cmp])⟩

/-! ### The arithmetic laws -/

/-- ADD and MUL give the sum and the product of the two bytes (R105). -/
theorem exec_add_mul_values {a b : Byte} (s : State) (ha : a.toNat < Config.numRegs) (hb : b.toNat < Config.numRegs) :
    ∃ t u, exec (.add a b) s = .next t ∧ exec (.mul a b) s = .next u ∧
      t.reg ⟨a.toNat, ha⟩ = s.reg ⟨a.toNat, ha⟩ + s.reg ⟨b.toNat, hb⟩ ∧
      u.reg ⟨a.toNat, ha⟩ = s.reg ⟨a.toNat, ha⟩ * s.reg ⟨b.toNat, hb⟩ := by
  refine ⟨_, _, (Completes.add ha hb).exec_eq, (Completes.mul ha hb).exec_eq, ?_, ?_⟩
  · rw [reg_advance, reg_setReg_same]
    exact BitVec.eq_of_toNat_eq (by rw [BitVec.toNat_ofNat, BitVec.toNat_add])
  · rw [reg_advance, reg_setReg_same]
    exact BitVec.eq_of_toNat_eq (by rw [BitVec.toNat_ofNat, BitVec.toNat_mul])

/-- Settles O32: sum and product of bytes are those of their signed readings, and 0xFF is minus one. -/
theorem arithmeticServesSignedOperandsToo : Obligations.ArithmeticServesSignedOperandsToo := by
  intro a b s ha hb
  obtain ⟨t, u, hadd, hmul, ht, hu⟩ := exec_add_mul_values s ha hb
  refine ⟨t, u, hadd, hmul, ?_, ?_, fun hff => ?_, fun hab => ?_⟩
  · rw [ht, BitVec.ofInt_add, BitVec.ofInt_toInt, BitVec.ofInt_toInt]
  · rw [hu, BitVec.ofInt_mul, BitVec.ofInt_toInt, BitVec.ofInt_toInt]
  · have hneg : (0xFF : Byte) = -1 := by decide
    rw [ht, hff, hneg, BitVec.sub_eq_add_neg]
  · subst hab
    rw [ht, hu, BitVec.toNat_add, BitVec.toNat_mul, Nat.two_mul, sq]
    exact ⟨rfl, rfl⟩

/-! ### JEQ and JNE -/

/-- A branch whose condition holds goes to the register's value; otherwise `pc` advances. -/
theorem branch_pc (m : Opcode) (c : Bool) (r : RegIndex) (s : State) :
    (c = true → (branch m c r s).pc.toNat = (s.reg r).toNat) ∧ (c = false → (branch m c r s).pc = s.nextPc m) := by
  constructor
  · rintro rfl
    exact toNat_jump_pc s _
  · rintro rfl
    rfl

/-- A branch changes `pc` and nothing else. -/
theorem branch_frame (m : Opcode) (c : Bool) (r : RegIndex) (s : State) :
    RegsKeptBut [] s (branch m c r s) ∧ CellsKeptBut [] s (branch m c r s) ∧ (branch m c r s).fl = s.fl ∧
      (branch m c r s).running = s.running ∧ RecordKept s (branch m c r s) ∧ (branch m c r s).out = s.out :=
  ⟨fun q _ => reg_branch m c r q s, cellsKeptBut_of_mem_eq (branch_mem m c r s) [], branch_fl m c r s,
    branch_running m c r s, ⟨branch_errKind m c r s, branch_errPc m c r s, branch_errOpcode m c r s⟩,
    branch_out m c r s⟩

theorem isEqual_eq_false_iff (f : Flag) : f.isEqual = false ↔ f ≠ .equal := by
  rw [← Bool.not_eq_true, isEqual_iff]

/-- Settles O41: the decoder on one operand byte, the branch on EQUAL, and the two OutOfRange errors. -/
theorem jeqBranchesOnEqual : Obligations.JeqBranchesOnEqual := by
  refine ⟨decode_oneOperand operandCount_jeq, fun a s ha => ⟨_, (Completes.jeq ha).exec_eq, ?_, ?_, branch_frame ..⟩,
    fun _ s ha => exec_raises_of_mem (i := .jeq _) List.mem_cons_self ha s,
    operandPastEndRaises (by rw [operandCount_jeq])⟩
  · exact fun heq => (branch_pc ..).1 ((isEqual_iff _).mpr heq)
  · exact fun hne => (branch_pc ..).2 ((isEqual_eq_false_iff _).mpr hne)

/-- Settles O42: the decoder on one operand byte, the branch on not EQUAL, and the two OutOfRange errors. -/
theorem jneBranchesOnNotEqual : Obligations.JneBranchesOnNotEqual := by
  refine ⟨decode_oneOperand operandCount_jne, fun a s ha => ⟨_, (Completes.jne ha).exec_eq, ?_, ?_, branch_frame ..⟩,
    fun _ s ha => exec_raises_of_mem (i := .jne _) List.mem_cons_self ha s,
    operandPastEndRaises (by rw [operandCount_jne])⟩
  · exact fun hne => (branch_pc ..).1 (by rw [(isEqual_eq_false_iff _).mpr hne, Bool.not_false])
  · exact fun heq => (branch_pc ..).2 (by rw [(isEqual_iff _).mpr heq, Bool.not_true])

/-! ### A JMP to its own address -/

/-- A jump to where `pc` already is changes nothing. -/
theorem jump_self {s : State} {v : Byte} (h : v.toNat = s.pc.toNat) : s.jump v = s := by
  have hpc : zextPc v = s.pc := BitVec.eq_of_toNat_eq ((toNat_zextPc v).trans h)
  rw [State.jump, hpc]
  rfl

/-- Settles O43: the machine steps to itself. -/
theorem jmpToItselfNeverEnds : Obligations.JmpToItselfNeverEnds := by
  intro k a s ha hr hf hpc
  have hstep : step s = .next s := by
    rw [step_fetched hr hf, (Completes.jmp ha).exec_eq, jump_self hpc]
  exact run_of_step_self hstep k

end Sys2Proof.Machine
end

section
/-! SUPPORT. PUSH, POP and CALL (43_stack.md R109 to R112; 44_control_transfer.md R115, R120): the pushed and the popped
state, and what comes back. -/

namespace Sys2Proof.Machine

/-! ### A push, and the register that is read after it -/

/-- The operand 7 names the stack pointer (R18). -/
theorem operand_eq_spIndex_iff {a : Byte} (ha : a.toNat < Config.numRegs) :
    (⟨a.toNat, ha⟩ : RegIndex) = spIndex ↔ a.toNat = 7 := Fin.ext_iff

/-- PUSH and CALL read their operand after the decrement (D13). -/
theorem reg_decSp_operand {a : Byte} (s : State) (ha : a.toNat < Config.numRegs) :
    s.decSp.reg ⟨a.toNat, ha⟩ = if a.toNat = 7 then s.sp - 1 else s.reg ⟨a.toNat, ha⟩ := by
  simp only [reg_decSp, operand_eq_spIndex_iff]

theorem cellsKeptBut_setCell (s : State) (a : Nat) (v : Byte) : CellsKeptBut [a] s (s.setCell a v) :=
  fun _ hb => readCell_writeCell_other s.mem v (List.ne_of_not_mem_cons hb)

/-- Two bytes further on, in the 9 bits of `pc`. -/
theorem toNat_pc_add_two (p : PcWord) : (p + 2).toNat = (p.toNat + 2) % 512 := BitVec.toNat_add p 2

/-- The execute rule of PUSH (R111) with its frame. -/
theorem exec_push_effect {a : Byte} (s : State) (ha : a.toNat < Config.numRegs) :
    ∃ t, exec (.push a) s = .next t ∧ t.sp = s.sp - 1 ∧ RegsKeptBut [spIndex] s t ∧
      (s.mem.wf = true → readCell t.mem (s.sp - 1).toNat =
        if a.toNat = 7 then s.sp - 1 else s.reg ⟨a.toNat, ha⟩) ∧
      CellsKeptBut [(s.sp - 1).toNat] s t ∧ t.pc = s.pc + 2 ∧
      t.fl = s.fl ∧ t.running = s.running ∧ RecordKept s t ∧ t.out = s.out := by
  refine ⟨_, (Completes.push ha).exec_eq, sp_decSp s, ?_, fun hw => ?_, ?_, nextPc_push s, rfl, rfl,
    ⟨rfl, rfl, rfl⟩, rfl⟩
  · exact regsKeptBut_setReg s spIndex (s.sp - 1)
  · exact (readCell_writeCell_same hw _ _).trans (reg_decSp_operand s ha)
  · exact cellsKeptBut_setCell s _ _

/-- Settles O33: the decoder on one operand byte, the effect, and the two OutOfRange errors. -/
theorem pushStoresBelowTheStackPointer : Obligations.PushStoresBelowTheStackPointer :=
  ⟨decode_oneOperand operandCount_push,
    fun _ s ha => exec_push_effect s ha,
    fun _ s ha => exec_raises_of_mem (i := .push _) List.mem_cons_self ha s,
    operandPastEndRaises (by rw [operandCount_push])⟩

/-! ### POP -/

/-- Every register after a register write and the increment of a pop: the increment is the later of the two. -/
theorem reg_incSp_setReg (s : State) (r q : RegIndex) (v : Byte) :
    (s.setReg r v).incSp.reg q =
      if q = spIndex then (if r = spIndex then v else s.sp) + 1 else if q = r then v else s.reg q := by
  simp only [reg_incSp, State.sp, reg_setReg, eq_comm (a := spIndex)]

/-- The execute rule of POP (R112) with its frame. -/
theorem exec_pop_effect {a : Byte} (s : State) (ha : a.toNat < Config.numRegs) :
    ∃ t, exec (.pop a) s = .next t ∧
      (a.toNat ≠ 7 → t.reg ⟨a.toNat, ha⟩ = readCell s.mem s.sp.toNat ∧ t.sp = s.sp + 1) ∧
      (a.toNat = 7 → t.sp = readCell s.mem s.sp.toNat + 1) ∧
      RegsKeptBut [⟨a.toNat, ha⟩, spIndex] s t ∧ CellsKeptBut [] s t ∧ t.pc = s.pc + 2 ∧
      t.fl = s.fl ∧ t.running = s.running ∧ RecordKept s t ∧ t.out = s.out := by
  have hreg := reg_incSp_setReg s ⟨a.toNat, ha⟩ (v := readCell s.mem s.sp.toNat)
  refine ⟨_, (Completes.pop ha).exec_eq, fun hne => ?_, fun heq => ?_, fun q hq => ?_,
    cellsKeptBut_of_mem_eq rfl [], nextPc_pop _, rfl, rfl, ⟨rfl, rfl, rfl⟩, rfl⟩
  · have hsp := (operand_eq_spIndex_iff ha).not.mpr hne
    refine ⟨?_, (hreg spIndex).trans (by rw [if_pos rfl, if_neg hsp])⟩
    rw [reg_advance, hreg, if_neg hsp, if_pos rfl]
  · have hsp := (operand_eq_spIndex_iff ha).mpr heq
    exact (hreg spIndex).trans (by rw [if_pos rfl, if_pos hsp])
  · obtain ⟨hqa, hqsp⟩ : q ≠ ⟨a.toNat, ha⟩ ∧ q ≠ spIndex := by simpa using hq
    rw [reg_advance, hreg, if_neg hqsp, if_neg hqa]

/-- Settles O34: the decoder on one operand byte, the effect, and the two OutOfRange errors. -/
theorem popLoadsAtTheStackPointer : Obligations.PopLoadsAtTheStackPointer :=
  ⟨decode_oneOperand operandCount_pop,
    fun _ s ha => exec_pop_effect s ha,
    fun _ s ha => exec_raises_of_mem (i := .pop _) List.mem_cons_self ha s,
    operandPastEndRaises (by rw [operandCount_pop])⟩

/-- After a pop of the byte a push of `r` stored, every register is as before the push, `r` = SP included (D13). -/
theorem reg_pop_push {s t : State} {r : RegIndex} {v : Byte} (hsp : t.sp = s.sp - 1)
    (hregs : RegsKeptBut [spIndex] s t) (hv : v = s.decSp.reg r) (q : RegIndex) :
    (t.setReg r v).incSp.reg q = s.reg q := by
  rw [reg_incSp_setReg]
  by_cases hq : q = spIndex
  · have hstored : (if r = spIndex then v else t.sp) = s.sp - 1 := by
      split
      · next hr => rw [hv, hr, ← State.sp, sp_decSp]
      · exact hsp
    rw [if_pos hq, hstored, BitVec.sub_add_cancel, hq, State.sp]
  · rw [if_neg hq]
    split
    · next hqr => rw [hv, ← hqr, reg_decSp, if_neg hq]
    · exact hregs q (by simpa using hq)

/-- Settles O35: the popped byte is the pushed one, read back from canonical memory. -/
theorem pushThenPopRestoresTheRegisters : Obligations.PushThenPopRestoresTheRegisters := by
  intro a s ha hw
  obtain ⟨t, ht, hsp, hregs, hcell, -⟩ := exec_push_effect s ha
  have hv : readCell t.mem t.sp.toNat = s.decSp.reg ⟨a.toNat, ha⟩ := by
    rw [hsp, hcell hw, reg_decSp_operand]
  have hall := reg_pop_push hsp hregs hv
  exact ⟨t, _, ht, (Completes.pop ha).exec_eq, hall spIndex, hall⟩

/-- Settles O36: the byte pushed to the next instruction's address is the first that is fetched there. -/
theorem pushedByteIsSeenByTheNextFetch : Obligations.PushedByteIsSeenByTheNextFetch := by
  intro a s ha hne hw haddr
  obtain ⟨t, ht, -, -, hcell, -, hpc, -⟩ := exec_push_effect s ha
  have hnext : t.pc.toNat = (s.sp - 1).toNat := by
    have hlt := (s.sp - 1).isLt
    rw [haddr] at hlt ⊢
    rw [hpc, toNat_pc_add_two]
    omega
  have hin : t.pc.toNat < Config.memSize := hnext ▸ byte_lt_memSize _
  refine ⟨t, ht, ?_⟩
  rw [fetchBytes_in t hin, List.head?_cons, hnext, hcell hw, if_neg hne]

/-! ### CALL -/

/-- The return address is `pc + 2` reduced to a byte (D14). -/
theorem returnByte_eq (s : State) : returnByte s = BitVec.ofNat 8 ((s.pc.toNat + 2) % 256) := by
  apply BitVec.eq_of_toNat_eq
  rw [returnByte, nextPc_call, pcLowByte, BitVec.toNat_setWidth, toNat_pc_add_two, BitVec.toNat_ofNat]
  omega

/-- The execute rule of CALL (R115) with its frame. -/
theorem exec_call_effect {a : Byte} (s : State) (ha : a.toNat < Config.numRegs) :
    ∃ t, exec (.call a) s = .next t ∧
      t.pc.toNat = (if a.toNat = 7 then s.sp - 1 else s.reg ⟨a.toNat, ha⟩).toNat ∧
      t.sp = s.sp - 1 ∧ RegsKeptBut [spIndex] s t ∧
      (s.mem.wf = true → readCell t.mem (s.sp - 1).toNat = BitVec.ofNat 8 ((s.pc.toNat + 2) % 256)) ∧
      CellsKeptBut [(s.sp - 1).toNat] s t ∧
      t.fl = s.fl ∧ t.running = s.running ∧ RecordKept s t ∧ t.out = s.out := by
  refine ⟨_, (Completes.call ha).exec_eq, ?_, sp_decSp s, ?_, fun hw => ?_, ?_, rfl, rfl, ⟨rfl, rfl, rfl⟩, rfl⟩
  · rw [toNat_jump_pc, reg_decSp_operand]
  · exact regsKeptBut_setReg s spIndex (s.sp - 1)
  · exact (readCell_writeCell_same hw _ _).trans (returnByte_eq s)
  · exact cellsKeptBut_setCell s _ _

/-- Settles O37: the decoder on one operand byte, the effect, and the two OutOfRange errors. -/
theorem callPushesTheReturnAddress : Obligations.CallPushesTheReturnAddress :=
  ⟨decode_oneOperand operandCount_call,
    fun _ s ha => exec_call_effect s ha,
    fun _ s ha => exec_raises_of_mem (i := .call _) List.mem_cons_self ha s,
    operandPastEndRaises (by rw [operandCount_call])⟩

/-- Settles O39: RET takes the return address CALL stored, and the stack pointer is back where it was. -/
theorem callThenRetReturns : Obligations.CallThenRetReturns := by
  intro a s ha hw hpc
  obtain ⟨t, ht, -, hsp, hregs, hcell, -⟩ := exec_call_effect s ha
  obtain ⟨u, hu, hupc, husp, huregs, -⟩ := exec_ret_effect t
  have hspBack : u.sp = s.sp := by rw [husp, hsp, BitVec.sub_add_cancel]
  refine ⟨t, u, ht, hu, ?_, hspBack, fun r => ?_⟩
  · apply BitVec.eq_of_toNat_eq
    rw [hupc, hsp, hcell hw, toNat_pc_add_two, BitVec.toNat_ofNat]
    omega
  · by_cases hr : r = spIndex
    · exact hr ▸ hspBack
    · have hmem : r ∉ [spIndex] := by simpa using hr
      exact (huregs r hmem).trans (hregs r hmem)

end Sys2Proof.Machine
end

section
/-! SUPPORT. The output trace and the error record (10_state.md R28, R30; 40_core_cycle_and_blocks.md R71, R93): what a step
writes to them, that it reads neither, and the codes the ports show. -/

namespace Sys2Proof.Machine

/-! ### Who emits -/

/-- The port shows nothing when nothing was emitted, and the byte when one was. -/
theorem portOut_of_out_eq {s t : State} (h : t.out = s.out) : portOut s t = none := by
  rw [portOut, h, List.drop_length, List.head?_nil]

theorem portOut_of_out_append {s t : State} {v : Byte} (h : t.out = s.out ++ [v]) : portOut s t = some v := by
  rw [portOut, h, List.drop_left, List.head?_cons]

/-- Settles O47: only a completed PRN emits, and the port shows what was appended. -/
theorem onlyPrnEmits : Obligations.OnlyPrnEmits := by
  intro s t h
  obtain ⟨-, rfl⟩ | ⟨-, k, op, -, rfl⟩ | ⟨hr, i, hf, hc⟩ := step_outcomes h
  · exact .inl ⟨rfl, portOut_of_out_eq rfl⟩
  · exact .inl ⟨raise_out s k op, portOut_of_out_eq (raise_out s k op)⟩
  · obtain hout | ⟨a, ha, rfl, hout⟩ := hc.out_cases
    · exact .inl ⟨hout, portOut_of_out_eq hout⟩
    · exact .inr ⟨a, ha, hr, hf, hout, portOut_of_out_append hout⟩

/-! ### No instruction reads the trace or the record -/

/-- The state with another output trace and another error record. -/
def State.withUnread (s : State) (o : List Byte) (k : ErrKind) (p : PcWord) (b : Byte) : State :=
  { s with out := o, errKind := k, errPc := p, errOpcode := b }

theorem withUnread_of_recordKept {s t : State} (h : RecordKept s t) (o : List Byte) :
    t.withUnread o s.errKind s.errPc s.errOpcode = { t with out := o } := by
  obtain ⟨hkind, hpc, hop⟩ := h
  rw [← hkind, ← hpc, ← hop]
  rfl

theorem withUnread_of_out_eq {s t : State} (h : t.out = s.out) (k : ErrKind) (p : PcWord) (b : Byte) :
    t.withUnread s.out k p b = { t with errKind := k, errPc := p, errOpcode := b } := by
  rw [← h]
  rfl

theorem branch_withUnread (m : Opcode) (c : Bool) (r : RegIndex) (s : State) (o : List Byte) (k : ErrKind) (p : PcWord)
    (b : Byte) : branch m c r (s.withUnread o k p b) = (branch m c r s).withUnread o k p b := by
  cases c <;> rfl

/-- Completion carries any trace and any record through, where nothing is emitted. -/
theorem Completes.withUnread_of_ne_prn {i : Instr} {s t : State} (h : Completes i s t) (hi : ∀ a, i ≠ .prn a)
    (o : List Byte) (k : ErrKind) (p : PcWord) (b : Byte) :
    Completes i (s.withUnread o k p b) (t.withUnread o k p b) := by
  cases h with
  | prn => exact absurd rfl (hi _)
  | ldi imm ha => exact .ldi imm ha
  | hlt => exact .hlt
  | mul ha hb => exact .mul ha hb
  | add ha hb => exact .add ha hb
  | push ha => exact .push ha
  | pop ha => exact .pop ha
  | call ha => exact .call ha
  | ret => exact .ret
  | cmp ha hb => exact .cmp ha hb
  | jmp ha => exact .jmp ha
  | jeq ha =>
    rw [← branch_withUnread]
    exact .jeq ha
  | jne ha =>
    rw [← branch_withUnread]
    exact .jne ha

/-- Completion appends the same bytes, at most one, to any trace, and carries any record through. -/
theorem Completes.withUnread {i : Instr} {s t : State} (h : Completes i s t) (o : List Byte) (k : ErrKind) (p : PcWord)
    (b : Byte) : ∃ e : List Byte, e.length ≤ 1 ∧ t.out = s.out ++ e ∧
      Completes i (s.withUnread o k p b) (t.withUnread (o ++ e) k p b) := by
  by_cases hi : ∃ a, i = .prn a
  · obtain ⟨a, rfl⟩ := hi
    cases h with
    | prn ha => exact ⟨[_], le_rfl, rfl, .prn ha⟩
  · have hne : ∀ a, i ≠ .prn a := not_exists.mp hi
    have hout : t.out = s.out := h.out_cases.resolve_right fun ⟨a, _, ha, _⟩ => hne a ha
    refine ⟨[], Nat.zero_le 1, by rw [List.append_nil, hout], ?_⟩
    rw [List.append_nil]
    exact h.withUnread_of_ne_prn hne o k p b

/-- A step does the same whatever the trace and the record are: it appends the same bytes, at most one, and carries the
record through; or it takes the fatal-error entry, which emits nothing and overwrites the record. -/
theorem step_withUnread {s t : State} (h : step s = .next t) (o : List Byte) (k : ErrKind) (p : PcWord) (b : Byte) :
    (∃ e : List Byte, e.length ≤ 1 ∧ t.out = s.out ++ e ∧ RecordKept s t ∧
      step (s.withUnread o k p b) = .next (t.withUnread (o ++ e) k p b)) ∨
    (t.Faulted ∧ t.out = s.out ∧
      step (s.withUnread o k p b) = .next (t.withUnread o t.errKind t.errPc t.errOpcode)) := by
  have hfetch : fetchInstr (s.withUnread o k p b) = fetchInstr s := fetchInstr_congr rfl rfl
  obtain ⟨hr, rfl⟩ | ⟨e, hr, hf, rfl⟩ | ⟨i, hr, hf, he⟩ := step_cases h
  · refine .inl ⟨[], Nat.zero_le 1, by rw [List.append_nil], ⟨rfl, rfl, rfl⟩, ?_⟩
    rw [List.append_nil]
    exact step_halted hr
  · refine .inr ⟨?_, rfl, step_fetchFailed hr (hfetch.trans hf)⟩
    obtain hk | hk := fetchFault_kind e <;> simp [fetchRaise, hk]
  · have hstep : step (s.withUnread o k p b) = exec i (s.withUnread o k p b) := step_fetched hr (hfetch.trans hf)
    obtain ⟨-, hc⟩ | ⟨hw, rfl⟩ := exec_cases he
    · obtain ⟨e, hlen, hout, hc'⟩ := hc.withUnread o k p b
      exact .inl ⟨e, hlen, hout, hc.recordKept, hstep.trans hc'.exec_eq⟩
    · exact .inr ⟨by simp, rfl, hstep.trans (exec_illFormed hw _)⟩

/-- Settles O48: the step from another trace, with the record as it is. -/
theorem outputTraceIsNeverRead : Obligations.OutputTraceIsNeverRead := by
  intro s t o h
  obtain ⟨e, hlen, hout, hkept, hstep⟩ | ⟨-, hout, hstep⟩ :=
    step_withUnread h o s.errKind s.errPc s.errOpcode
  · rw [withUnread_of_recordKept hkept] at hstep
    exact ⟨e, hlen, hout, hstep⟩
  · refine ⟨[], Nat.zero_le 1, by rw [List.append_nil, hout], ?_⟩
    rw [List.append_nil]
    exact hstep

/-- Settles O49: the step from another record, with the trace as it is. -/
theorem errorRecordIsNeverRead : Obligations.ErrorRecordIsNeverRead := by
  intro s t k p b hs h
  obtain ⟨e, -, hout, ⟨hkind, -, -⟩, hstep⟩ | ⟨hfault, hout, hstep⟩ := step_withUnread h s.out k p b
  · rw [if_pos (hkind.trans hs)]
    rw [← hout] at hstep
    exact hstep
  · rw [if_neg hfault]
    rw [withUnread_of_out_eq hout] at hstep
    exact hstep

/-! ### The codes on the ports -/

theorem errKind_code_eq_zero_iff (k : ErrKind) : k.code = 0 ↔ k = .none := by cases k <;> decide

/-- Settles O50: the codes by definition, and one value of `FL` or of the error kind at a time. -/
theorem portCodesAreTheSpecifiedOnes : Obligations.PortCodesAreTheSpecifiedOnes := by
  refine ⟨rfl, rfl, rfl, rfl, fun s => ?_, rfl, rfl, rfl, rfl, fun s => ?_⟩
  · have hbits : ∀ f : Flag, f.bits ∈ ([0b000, 0b001, 0b010, 0b100] : List (BitVec 3)) := by
      intro f
      cases f <;> decide
    exact hbits s.fl
  · exact (errKind_code_eq_zero_iff s.errKind).trans not_not.symm

end Sys2Proof.Machine
end
